-- ==== Sys2Proof/Word.lean ====
section
/-! DEFINITION. The words of the SO101 servo-bus framer: a byte of a packet, a host command word. -/

namespace Sys2Proof

/-- A byte of a packet (R8: 8 bits). -/
abbrev Byte := BitVec 8

/-- A host command word, HOSTCMD (R89: 64 bits). -/
abbrev HostWord := BitVec 64

end Sys2Proof
end

