-- ==== Sys2Proof/Config.lean ====
section
/-! DEFINITION. The implementation parameters of R7 (spec/00_scope.md) and the one open value among them. -/

namespace Sys2Proof

/-- `READ_MAX_LEN` less one: OPEN in the spec (R7, D8), so nothing constrains it (log 2). -/
opaque Config.readMaxLenLess1 : Nat

/-- `READ_MAX_LEN`: some natural number, at least 1 (R7, D8; log 2). -/
def Config.readMaxLen : Nat := Config.readMaxLenLess1 + 1

/-- `N_MOTORS` (R7). -/
def Config.nMotors : Nat := 6

/-- `POS_MAX` (R7). -/
def Config.posMax : Nat := 4095

/-- `RESP_MIN_LEN` (R7). -/
def Config.respMinLen : Nat := 8

/-- `BAUD_REQUIRED` (R7, R233): what the protocol requires. The block does not check it (R91, D24). -/
def Config.baudRequired : Nat := 1000000

/-- `TICK`, in milliseconds per tick (R7, D17). -/
def Config.tickMs : Nat := 1

/-- `T_READ_TIMEOUT`, in milliseconds (R7). -/
def Config.readTimeoutMs : Nat := 2000

/-- `T_SWEEP_GAP`, in milliseconds: the spec's default (R7; log 3). -/
def Config.sweepGapMs : Nat := 50

/-- `T_DISABLE_GAP`, in milliseconds: the spec's default (R7; log 3). -/
def Config.disableGapMs : Nat := 20

/-- The tick count loaded for a duration: `T / TICK` (R38). -/
def Config.ticks (ms : Nat) : BitVec 16 := BitVec.ofNat 16 (ms / Config.tickMs)

/-- Ticks of the read deadline (R38: 2000). -/
def Config.readTimeoutTicks : BitVec 16 := Config.ticks Config.readTimeoutMs

/-- Ticks of the sweep gap (R38: 50). -/
def Config.sweepGapTicks : BitVec 16 := Config.ticks Config.sweepGapMs

/-- Ticks of the disable gap (R38: 20). -/
def Config.disableGapTicks : BitVec 16 := Config.ticks Config.disableGapMs

/-- `SENTINEL`, one of its two equal bytes (R7). -/
def Config.sync : Byte := 0xFF#8

/-- `INSTR_READ` (R7). -/
def Config.instrRead : Byte := 0x02#8

/-- `INSTR_WRITE` (R7). -/
def Config.instrWrite : Byte := 0x03#8

/-- `ADDR_PRESENT_POSITION` (R7, R61). -/
def Config.addrPresentPosition : Byte := 0x38#8

/-- `ADDR_TARGET_POSITION` (R7, R61). -/
def Config.addrTargetPosition : Byte := 0x2A#8

/-- `ADDR_TORQUE_ENABLE` (R7, R61). -/
def Config.addrTorqueEnable : Byte := 0x28#8

end Sys2Proof
end

