-- ==== Sys2Proof/Machine/Operands.lean ====
section
/-! DEFINITION. Operand forms: the fields of a host command word (R89), operand assembly (R91), the position clamp
(R112), the byte split and join of a position (R92, R116, R121), and a number's bytes in transmission order. -/

namespace Sys2Proof.Machine

/-- `w[3:0]`, OP (R89). -/
def hostOp (w : HostWord) : BitVec 4 := w.extractLsb' 0 4

/-- `w[7:4]`, RSV0 (R89). -/
def hostRsv0 (w : HostWord) : BitVec 4 := w.extractLsb' 4 4

/-- `w[15:8]`, ID (R89). -/
def hostId (w : HostWord) : Byte := w.extractLsb' 8 8

/-- `w[31:16]`, RSV1 (R89). -/
def hostRsv1 (w : HostWord) : BitVec 16 := w.extractLsb' 16 16

/-- `w[63:32]`, OPND (R89). -/
def hostOpnd (w : HostWord) : BitVec 32 := w.extractLsb' 32 32

/-- The word with these fields and both reserved fields 0 (R89, R95). -/
def hostWordOf (op : BitVec 4) (id : Byte) (opnd : BitVec 32) : HostWord :=
  opnd ++ 0#16 ++ id ++ 0#4 ++ op

/-- The requested position: `sint(OPND)` (R91, D6). -/
def requestedPos (opnd : BitVec 32) : Int := opnd.toInt

/-- `Clamp(p)` (R112), in 12 bits. -/
def clamp (p : Int) : BitVec 12 :=
  if p < 0 then 0#12
  else if (Config.posMax : Int) < p then BitVec.ofNat 12 Config.posMax
  else BitVec.ofInt 12 p

/-- `posc[7:0]` (R92). -/
def posLow (posc : BitVec 12) : Byte := posc.extractLsb' 0 8

/-- `zext_8(posc[11:8])` (R92). -/
def posHigh (posc : BitVec 12) : Byte := (posc.extractLsb' 8 4).setWidth 8

/-- The byte join `(high << 8) | low` of the parser (R116, R121). -/
def joinPos (low high : Byte) : BitVec 16 := (high.setWidth 16 <<< 8) ||| low.setWidth 16

/-- The `n` low bytes of `w`, the most significant first: transmission order, as the table numbers a packet
(30_encoding.md, its opening). -/
def bytesOf : Nat → Nat → List Byte
  | 0, _ => []
  | n + 1, w => BitVec.ofNat 8 (w >>> (8 * n)) :: bytesOf n w

end Sys2Proof.Machine
end

