-- ==== Sys2Proof/Machine/Codec.lean ====
section
/-! DEFINITION. The packet codec (spec/40_codec.md): checksum, the three request builders, the response parser. Total
functions outside the step, as R117 asks. -/

namespace Sys2Proof.Machine

/-- `Checksum(body)` (R110): the complement of the unbounded sum reduced to 8 bits. -/
def checksum (body : List Byte) : Byte :=
  ~~~ (BitVec.ofNat 8 (body.map BitVec.toNat).sum)

/-- The frame of R81: two sentinels, the body, its checksum (R83). -/
def frame (body : List Byte) : List Byte :=
  [Config.sync, Config.sync] ++ body ++ [checksum body]

/-- `EncReadPosition(id)` (R113, shape R84). -/
def encReadPosition (id : Byte) : List Byte :=
  frame [id, 0x04#8, Config.instrRead, Config.addrPresentPosition, 0x02#8]

/-- `EncWritePosition(id, p)` (R114, shape R85): clamps, then splits. -/
def encWritePosition (id : Byte) (p : Int) : List Byte :=
  frame [id, 0x05#8, Config.instrWrite, Config.addrTargetPosition, posLow (clamp p), posHigh (clamp p)]

/-- `EncWriteTorqueEnable(id, enabled)` (R115, shape R86). -/
def encWriteTorqueEnable (id : Byte) (enabled : Bool) : List Byte :=
  frame [id, 0x04#8, Config.instrWrite, Config.addrTorqueEnable, if enabled then 0x01#8 else 0x00#8]

/-- `DecodePositionResponse(r)` (R116): `none` is an absent response; bytes 5 and 6 alone are read (R87, R120). -/
def decodePositionResponse : Option (List Byte) → Option (BitVec 16)
  | none => none
  | some r =>
    if r.length < Config.respMinLen then none
    else some (joinPos (r.getD 5 0#8) (r.getD 6 0#8))

end Sys2Proof.Machine
end

