-- ==== Sys2Proof/Syntax.lean ====
section
/-! DEFINITION. The syntax: the instructions of spec/opcode_table.json, one constructor per row, in the two layers of
R1 (host commands and wire packets), the three kinds of code they are written in, and the assembler's lines (R95). -/

namespace Sys2Proof

/-- The rows of spec/opcode_table.json. Fields a row ignores (R93) are no operands. -/
inductive Instr where
  /-- CONNECT (R141): `baud` is OPND. -/
  | connect (baud : BitVec 32)
  /-- DISCONNECT (R142). -/
  | disconnect
  /-- ISCONN (R143). -/
  | isConn
  /-- READPOS (R170): `id` is ID. -/
  | readPos (id : Byte)
  /-- READALL (R176). -/
  | readAll
  /-- WRITEPOS (R175): `id` is ID, `opnd` is OPND, read as signed by the meaning (R91). -/
  | writePos (id : Byte) (opnd : BitVec 32)
  /-- REQ_READ_POS (R84, R113). -/
  | reqReadPos (id : Byte)
  /-- REQ_WRITE_POS (R85, R114): `pos` is HIGH above LOW. -/
  | reqWritePos (id : Byte) (pos : BitVec 16)
  /-- REQ_WRITE_TORQUE (R86, R115). -/
  | reqWriteTorque (id : Byte) (enabled : Bool)
  /-- RESP_POS (R87, R116): the whole chunk of a read. -/
  | respPos (chunk : List Byte)
deriving DecidableEq, Repr

/-- Code as it arrives or leaves, by port and direction (R80): a word on the host port, a packet the block writes,
a chunk the transport returns. -/
inductive Code where
  | hostWord (w : HostWord)
  | request (bytes : List Byte)
  | response (bytes : List Byte)
deriving DecidableEq, Repr

/-- A line of the assembler (R95), with the operands as written. -/
inductive Line where
  | connect (baud : Int)
  | disconnect
  | isConn
  | readPos (id : Int)
  | readAll
  | writePos (id pos : Int)
deriving DecidableEq, Repr

end Sys2Proof
end

