-- ==== Sys2Proof/WellFormed.lean ====
section
/-! DEFINITION. Which instructions and which assembler lines are well formed. A host command's operands fill their
fields, so every host command is; the two checks on packets are those of the table's rows. -/

namespace Sys2Proof

/-- Well-formedness of an instruction: a written position fits 12 bits, so that the upper nibble of HIGH is 0 (R85 and
the row REQ_WRITE_POS); a response has the 8 bytes the parser needs (R87 and the row RESP_POS). -/
def Instr.wf : Instr → Bool
  | .connect _ => true
  | .disconnect => true
  | .isConn => true
  | .readPos _ => true
  | .readAll => true
  | .writePos _ _ => true
  | .reqReadPos _ => true
  | .reqWritePos _ pos => decide (pos.toNat ≤ Config.posMax)
  | .reqWriteTorque _ _ => true
  | .respPos chunk => decide (Config.respMinLen ≤ chunk.length)

/-- An identity operand in its range (R95: 0..255). -/
def Line.idOk (id : Int) : Bool := decide (0 ≤ id) && decide (id ≤ 255)

/-- Well-formedness of an assembler line: every operand in its range (R95). -/
def Line.wf : Line → Bool
  | .connect baud => decide (0 ≤ baud) && decide (baud < 2 ^ 32)
  | .disconnect => true
  | .isConn => true
  | .readPos id => Line.idOk id
  | .readAll => true
  | .writePos id pos => Line.idOk id && (decide (-(2 ^ 31) ≤ pos) && decide (pos < 2 ^ 31))

end Sys2Proof
end

