-- ==== Sys2Proof/Decode.lean ====
section
/-! DEFINITION. The decoder, total on every code and rejecting by name; the encoder after it; the opcode table's match
and mask; and the reading of a table word for the host. -/

namespace Sys2Proof

open Sys2Proof.Machine

/-- Why a code decodes to no instruction. The first three make a host word illegal (R93). -/
inductive DecodeError where
  /-- OP in 0x6..0xF (R93). -/
  | reservedOp
  /-- RSV0 nonzero (R93). -/
  | rsv0Nonzero
  /-- RSV1 nonzero (R93). -/
  | rsv1Nonzero
  /-- None of the three request shapes (R94). -/
  | notARequest
  /-- A request shape whose last byte is not the checksum of its body (R83). -/
  | badChecksum
  /-- A chunk of fewer than 8 bytes (R88, R94): it decodes to no data. -/
  | shortChunk
deriving DecidableEq, Repr

/-- What the decoder answers. -/
inductive Decoded where
  | ok (i : Instr)
  | rejected (e : DecodeError)
deriving DecidableEq, Repr

/-- The instruction, if there is one. -/
def Decoded.instr? : Decoded → Option Instr
  | .ok i => some i
  | .rejected _ => none

/-- A command by its code OP and the two operand fields (R90). -/
def decodeHostOp (op : Nat) (id : Byte) (opnd : BitVec 32) : Decoded :=
  match op with
  | 0 => .ok (.connect opnd)
  | 1 => .ok .disconnect
  | 2 => .ok .isConn
  | 3 => .ok (.readPos id)
  | 4 => .ok .readAll
  | 5 => .ok (.writePos id opnd)
  | _ => .rejected .reservedOp

/-- The decoder of the host port (R89, R90, R93): every 64-bit word is a command or illegal. -/
def decodeHostWord (w : HostWord) : Decoded :=
  if hostRsv0 w ≠ 0#4 then .rejected .rsv0Nonzero
  else if hostRsv1 w ≠ 0#16 then .rejected .rsv1Nonzero
  else decodeHostOp (hostOp w).toNat (hostId w) (hostOpnd w)

/-- The body of a request by its bytes after the sentinels, checksum left out (R84 to R86). -/
def matchBody : List Byte → Option Instr
  | [id, len, ins, addr, d0] =>
    if len = 0x04#8 ∧ ins = Config.instrRead ∧ addr = Config.addrPresentPosition ∧ d0 = 0x02#8 then
      some (.reqReadPos id)
    else if len = 0x04#8 ∧ ins = Config.instrWrite ∧ addr = Config.addrTorqueEnable ∧ (d0 = 0x00#8 ∨ d0 = 0x01#8) then
      some (.reqWriteTorque id (decide (d0 = 0x01#8)))
    else none
  | [id, len, ins, addr, lo, hi] =>
    if len = 0x05#8 ∧ ins = Config.instrWrite ∧ addr = Config.addrTargetPosition ∧ hi ≤ 0x0F#8 then
      some (.reqWritePos id (hi ++ lo))
    else none
  | _ => none

/-- A request packet by its row's match and mask, which leave the checksum byte out (R81). -/
def matchRequest : List Byte → Option Instr
  | s0 :: s1 :: rest => if s0 = Config.sync ∧ s1 = Config.sync then matchBody rest.dropLast else none
  | _ => none

/-- The decoder of request packets: the shape, and the checksum of bytes 2 to n-2 in the last byte (R83). The block
itself only builds requests; this reads what it built. -/
def decodeRequest (p : List Byte) : Decoded :=
  match matchRequest p with
  | none => .rejected .notARequest
  | some i => if p.getLast? = some (checksum (p.drop 2).dropLast) then .ok i else .rejected .badChecksum

/-- The decoder of a read's chunk (R87, R88, R94): 8 bytes or more, nothing else is looked at. -/
def decodeResponse (bs : List Byte) : Decoded :=
  if Config.respMinLen ≤ bs.length then .ok (.respPos bs) else .rejected .shortChunk

/-- The decoder, by port (R80). -/
def decode : Code → Decoded
  | .hostWord w => decodeHostWord w
  | .request bs => decodeRequest bs
  | .response bs => decodeResponse bs

/-- The command code OP of a host command (R90). -/
def opConnect : BitVec 4 := 0x0#4
/-- R90. -/
def opDisconnect : BitVec 4 := 0x1#4
/-- R90. -/
def opIsConn : BitVec 4 := 0x2#4
/-- R90. -/
def opReadPos : BitVec 4 := 0x3#4
/-- R90. -/
def opReadAll : BitVec 4 := 0x4#4
/-- R90. -/
def opWritePos : BitVec 4 := 0x5#4

/-- The encoder, from the layouts of R84 to R87 and R89: fields an instruction does not use are 0 (R95). -/
def encode : Instr → Code
  | .connect baud => .hostWord (hostWordOf opConnect 0#8 baud)
  | .disconnect => .hostWord (hostWordOf opDisconnect 0#8 0#32)
  | .isConn => .hostWord (hostWordOf opIsConn 0#8 0#32)
  | .readPos id => .hostWord (hostWordOf opReadPos id 0#32)
  | .readAll => .hostWord (hostWordOf opReadAll 0#8 0#32)
  | .writePos id opnd => .hostWord (hostWordOf opWritePos id opnd)
  | .reqReadPos id => .request (encReadPosition id)
  | .reqWritePos id pos => .request (encWritePosition id pos.toNat)
  | .reqWriteTorque id enabled => .request (encWriteTorqueEnable id enabled)
  | .respPos chunk => .response chunk

/-- A row's width in bytes, match and mask, as spec/opcode_table.json gives them. -/
structure Row where
  bytes : Nat
  value : Nat
  mask : Nat
deriving DecidableEq, Repr

/-- The row of an instruction in spec/opcode_table.json. -/
def Instr.row : Instr → Row
  | .connect _ => ⟨8, 0x0000000000000000, 0x00000000FFFF00FF⟩
  | .disconnect => ⟨8, 0x0000000000000001, 0x00000000FFFF00FF⟩
  | .isConn => ⟨8, 0x0000000000000002, 0x00000000FFFF00FF⟩
  | .readPos _ => ⟨8, 0x0000000000000003, 0x00000000FFFF00FF⟩
  | .readAll => ⟨8, 0x0000000000000004, 0x00000000FFFF00FF⟩
  | .writePos _ _ => ⟨8, 0x0000000000000005, 0x00000000FFFF00FF⟩
  | .reqReadPos _ => ⟨8, 0xFFFF000402380200, 0xFFFF00FFFFFFFF00⟩
  | .reqWritePos _ _ => ⟨9, 0xFFFF0005032A000000, 0xFFFF00FFFFFF00F000⟩
  | .reqWriteTorque _ _ => ⟨8, 0xFFFF000403280000, 0xFFFF00FFFFFFFE00⟩
  | .respPos _ => ⟨8, 0x0000000000000000, 0x0000000000000000⟩

/-- The bytes of a code, a host word's most significant byte first, as the table numbers both kinds of row. -/
def Code.bytes : Code → List Byte
  | .hostWord w => bytesOf 8 w.toNat
  | .request bs => bs
  | .response bs => bs

/-- A byte list agrees with a row: under the mask, its bytes are the match's. -/
def Row.agrees (r : Row) (bs : List Byte) : Bool :=
  decide (r.bytes ≤ bs.length) &&
    ((bs.zip (bytesOf r.bytes r.mask)).map fun x => x.1 &&& x.2) ==
      (((bytesOf r.bytes r.value).zip (bytesOf r.bytes r.mask)).map fun x => x.1 &&& x.2)

/-- The instruction of a table word (log 8): the rows in the table's order, the first that matches. A word of up to 64
bits is tried as a host word, then by the request rows' match and mask, then as a chunk (the row RESP_POS masks
nothing); a wider one as a packet only. Byte 0 of a packet is the most significant. -/
def decodeTableWord (nbits w : Nat) : Option Instr :=
  let bs := bytesOf (nbits / 8) w
  let packet := match matchRequest bs with
    | some i => some i
    | none => (decodeResponse bs).instr?
  if nbits ≤ 64 then
    match decodeHostWord (BitVec.ofNat 64 w) with
    | .ok i => some i
    | .rejected _ => packet
  else packet

end Sys2Proof
end

