-- ==== Sys2Proof/Machine/State.lean ====
section
/-! DEFINITION. The state of the block as plain data (spec/10_state.md), its ports and their traffic, the pin records
that stand for the environment, the trace, the faults and refusals, and reset. -/

namespace Sys2Proof.Machine

/-- Completion statuses (R202). Codes 6 to 15 are never written, so they are unrepresentable (spec/93). -/
inductive Status where
  /-- 0 -/
  | ok
  /-- 1 (R203) -/
  | notConnected
  /-- 2 (R204) -/
  | connectFailed
  /-- 3 (R205) -/
  | closeFailed
  /-- 4 (R206) -/
  | alreadyConnected
  /-- 5 (R207) -/
  | illegalCommand
deriving DecidableEq, Repr

/-- The orchestrator's phases (R34). Values 9 to 15 are never reached, so they are unrepresentable. -/
inductive Phase where
  | idle | cOpen | rWrite | rWait | sGap | wWrite | dWrite | dGap | dClose
deriving DecidableEq, Repr

/-- A transport request that is answered (R43). `TCancel` is not answered (D32), so it is never outstanding. -/
inductive Request where
  | openStream (baud : BitVec 32)
  | write (bytes : List Byte)
  | read (maxLen : Nat)
  | closeStream
deriving DecidableEq, Repr

/-- A transport outcome (R43). -/
inductive Answer where
  | openOk | openErr | writeOk | writeErr
  | readData (bytes : List Byte)
  | readEnd | readErr | closeOk | closeErr
deriving DecidableEq, Repr

/-- An event of the trace (R45). -/
inductive Event where
  | cmd (word : HostWord)
  | request (r : Request)
  | cancel
  | acqRd | relRd | relWr
  | answer (a : Answer)
  | expire
  | done (st : Status)
deriving DecidableEq, Repr

/-- What the environment presents on the block's input pins in one step (R42, R43, R217, R230; log 1). -/
structure PortIn where
  /-- The reset input (R230). -/
  reset : Bool := false
  /-- CMD_VALID and, where it is 1, CMD_WORD (R42). -/
  cmd : Option HostWord := none
  /-- REG_SEL (R42). -/
  regSel : BitVec 8 := 0#8
  /-- RX_USABLE (R43). -/
  rxUsable : Bool := false
  /-- The transport's outcome, if it delivers one in this step (R43). -/
  answer : Option Answer := none
  /-- TICK_IN (R217). -/
  tick : Bool := false
  /-- The environment's choice where a read's outcome and the deadline meet in one step (R172, D10; log 4). -/
  answerWins : Bool := false
deriving DecidableEq, Repr

/-- Why a step could stop. The block has no fault state (R221), so there is no constructor: no step of this model
faults, which is the spec's own statement (safe). -/
inductive Fault where
deriving DecidableEq, Repr

/-- Why a step is refused. -/
inductive Refusal where
  /-- Raised by `exec` for an instruction without a meaning. No arm of this model raises it. Safe. -/
  | notModelled (mnemonic : String)
  /-- Raised by the step when the environment delivers an outcome that answers no outstanding request, or one the
  phase does not await: a move R220 gives no step (log 5). The block's behaviour is not given, so nothing can be
  proved of what follows: safe. -/
  | unawaitedAnswer
  /-- Raised by the step when a read is answered with 0 bytes or more than asked for: a move R220 gives no step
  (log 5). Safe, as above. -/
  | chunkOutOfRange
deriving DecidableEq, Repr

/-- The state of the block. -/
structure State where
  /-- STATUS.LAST_STATUS (R22). -/
  lastStatus : Status
  /-- STATUS.CONN (R23). -/
  conn : Bool
  /-- STATUS.WR_HELD (R26). -/
  wrHeld : Bool
  /-- STATUS.RD_HELD (R27). -/
  rdHeld : Bool
  /-- RESULT_BOOL (R29). -/
  resultBool : Bool
  /-- RESULT_POS (R30): VALID in bit 16, VALUE in bits 15..0. -/
  resultPos : BitVec 17
  /-- SWEEP_VALID (R31): bit i-1 for motor i. -/
  sweepValid : BitVec 6
  /-- SWEEP_POS[1..6] (R31): entry i-1 for motor i. -/
  sweepPos : Vector (BitVec 16) 6
  /-- DISABLE_FAIL (R32): bit i-1 for motor i. -/
  disableFail : BitVec 6
  /-- The orchestrator's phase (R34). -/
  phase : Phase
  /-- cmd_op (R35). -/
  cmdOp : BitVec 4
  /-- cmd_id (R35). -/
  cmdId : Byte
  /-- cmd_opnd (R35). -/
  cmdOpnd : BitVec 32
  /-- posc (R36). -/
  posc : BitVec 12
  /-- idx (R37). -/
  idx : BitVec 3
  /-- timer (R38). -/
  timer : BitVec 16
  /-- txbuf (R39). -/
  txbuf : List Byte
  /-- rxbuf (R40). -/
  rxbuf : List Byte
  /-- The outstanding request of the transport port (R43, R69). -/
  req : Option Request
  /-- RX_USABLE as last sampled (R43). -/
  rxUsable : Bool
  /-- REG_SEL as last sampled (R42). -/
  regSel : BitVec 8
  /-- The event trace (R45), oldest first. -/
  trace : List Event
  /-- The model's own field (log 1): the pin records the environment will still present, one a step. -/
  inputs : List PortIn
deriving DecidableEq, Repr

/-- The state right after reset: every register at the value of R230; the fields the spec gives no value are log 10's. -/
def State.reset : State where
  lastStatus := .ok
  conn := false
  wrHeld := false
  rdHeld := false
  resultBool := false
  resultPos := 0#17
  sweepValid := 0#6
  sweepPos := Vector.replicate 6 0#16
  disableFail := 0#6
  phase := .idle
  cmdOp := 0#4
  cmdId := 0#8
  cmdOpnd := 0#32
  posc := 0#12
  idx := 0#3
  timer := 0#16
  txbuf := []
  rxbuf := []
  req := none
  rxUsable := false
  regSel := 0#8
  trace := []
  inputs := []

end Sys2Proof.Machine
end

