-- ==== Sys2Proof/Machine/Flags.lean ====
section
/-! DEFINITION. The bits of STATUS (R21 to R28), the register-read port (R21, R33, R42) and the register forms of
results. The block has no condition codes; the STATUS bits are its flags (41_lifecycle.md, its opening). -/

namespace Sys2Proof.Machine

/-- The code of a status (R202). -/
def Status.code : Status → BitVec 4
  | .ok => 0#4
  | .notConnected => 1#4
  | .connectFailed => 2#4
  | .closeFailed => 3#4
  | .alreadyConnected => 4#4
  | .illegalCommand => 5#4

/-- The value of a phase (R34). -/
def Phase.code : Phase → BitVec 4
  | .idle => 0#4
  | .cOpen => 1#4
  | .rWrite => 2#4
  | .rWait => 3#4
  | .sGap => 4#4
  | .wWrite => 5#4
  | .dWrite => 6#4
  | .dGap => 7#4
  | .dClose => 8#4

/-- STATUS.BUSY (R25). -/
def State.busy (s : State) : Bool := decide (s.phase ≠ .idle)

/-- The output CMD_READY (R42). -/
def State.cmdReady (s : State) : Bool := !s.busy

/-- STATUS.IS_CONNECTED and the pin of the same name (R24, R42). -/
def State.isConnected (s : State) : Bool := s.conn && s.rxUsable

/-- STATUS (R21): [15:9] reserved, [8] RD_HELD, [7] WR_HELD, [6] BUSY, [5] IS_CONNECTED, [4] CONN, [3:0] LAST_STATUS. -/
def State.status (s : State) : BitVec 16 :=
  0#7 ++ BitVec.ofBool s.rdHeld ++ BitVec.ofBool s.wrHeld ++ BitVec.ofBool s.busy ++
    BitVec.ofBool s.isConnected ++ BitVec.ofBool s.conn ++ s.lastStatus.code

/-- The register with number `n` (R21), zero-extended to 32 bits (R42). A read changes nothing (R33): it is a function. -/
def State.readReg (s : State) (n : BitVec 8) : BitVec 32 :=
  match n.toNat with
  | 0 => s.status.setWidth 32
  | 1 => (BitVec.ofBool s.resultBool).setWidth 32
  | 2 => s.resultPos.setWidth 32
  | 3 => s.sweepValid.setWidth 32
  | 4 => s.sweepPos[0].setWidth 32
  | 5 => s.sweepPos[1].setWidth 32
  | 6 => s.sweepPos[2].setWidth 32
  | 7 => s.sweepPos[3].setWidth 32
  | 8 => s.sweepPos[4].setWidth 32
  | 9 => s.sweepPos[5].setWidth 32
  | 10 => s.disableFail.setWidth 32
  | _ => 0#32

/-- The output REG_DATA (R42). -/
def State.regData (s : State) : BitVec 32 := s.readReg s.regSel

/-- RESULT_POS for a result (R30). -/
def posRegister : Option (BitVec 16) → BitVec 17
  | none => 0#17
  | some v => 1#1 ++ v

/-- The bit of motor `i` in a 6-bit register (R31, R32): bit i-1 for i = 1..6; no bit for another `i` (log 14). -/
def motorMask (i : BitVec 3) : BitVec 6 :=
  if i = 0#3 then 0#6 else 1#6 <<< (i.toNat - 1)

/-- Write the bit of motor `i`. -/
def setMotorBit (r : BitVec 6) (i : BitVec 3) (b : Bool) : BitVec 6 :=
  if b then r ||| motorMask i else r &&& ~~~ motorMask i

/-- Write the entry of motor `i` in SWEEP_POS (R31); no entry for an `i` outside 1..6 (log 14). -/
def setMotorPos (f : Vector (BitVec 16) 6) (i : BitVec 3) (v : BitVec 16) : Vector (BitVec 16) 6 :=
  if i = 0#3 then f else f.setIfInBounds (i.toNat - 1) v

end Sys2Proof.Machine
end

