-- ==== Sys2Proof/Machine/Ops.lean ====
section
/-! DEFINITION. The named operations the meanings and the orchestrator share: the transport primitives of R9, completion
(R201, the block's only way to report an error: it has no traps, R200), the connection check (R144), the read
transaction (R171), the disable step (R142) and the time base (R217). -/

namespace Sys2Proof.Machine

/-- Append one event to the trace (R45). -/
def record (e : Event) (s : State) : State := { s with trace := s.trace ++ [e] }

/-- Issue a request that the transport answers (R9, R43): recorded, and outstanding until its outcome. -/
def issue (r : Request) (s : State) : State := record (.request r) { s with req := some r }

/-- `TCancel()` (R9, R43): the pending read is abandoned and no outcome of it is taken any more (D32). -/
def tCancel (s : State) : State := record .cancel { s with req := none }

/-- `RD_HELD <- 1; AcqRd()` (R171). -/
def acquireRead (s : State) : State := record .acqRd { s with rdHeld := true }

/-- `RD_HELD <- 0; RelRd()` (R171). -/
def releaseRead (s : State) : State := record .relRd { s with rdHeld := false }

/-- `WR_HELD <- 0; RelWr()` (R142). -/
def releaseWrite (s : State) : State := record .relWr { s with wrHeld := false }

/-- `Complete(s)` (R201). -/
def complete (st : Status) (s : State) : State :=
  record (.done st) { s with lastStatus := st, phase := .idle }

/-- `raise S()` (R201): it is `Complete(S)`. -/
def raise (st : Status) (s : State) : State := complete st s

/-- `txbuf <- p; TWrite(txbuf); phase <- P`: the step that puts a request packet on the port (R39, R67). -/
def issuePacket (p : List Byte) (ph : Phase) (s : State) : State :=
  issue (.write p) { s with txbuf := p, phase := ph }

/-- `RequireConnected()` (R144): it reads CONN alone (D11). -/
def requireConnected (k : State → State) (s : State) : State :=
  if s.conn then k s else raise .notConnected s

/-- `StartRead(i)` (R171). -/
def startRead (i : Byte) (s : State) : State :=
  issuePacket (encReadPosition i) .rWrite (acquireRead s)

/-- Store a motor's result in the sweep registers and begin the sweep gap: the READALL branch of `FinishRead` (R171). -/
def storeSweepEntry (v : Option (BitVec 16)) (s : State) : State :=
  { s with
    sweepValid := setMotorBit s.sweepValid s.idx v.isSome
    sweepPos := setMotorPos s.sweepPos s.idx (v.getD 0#16)
    timer := Config.sweepGapTicks
    phase := .sGap }

/-- `FinishRead(v)` (R171), by the latched command. Another `cmd_op` cannot be latched there (log 13). -/
def finishRead (v : Option (BitVec 16)) (s : State) : State :=
  if s.cmdOp = 0x3#4 then complete .ok { releaseRead s with resultPos := posRegister v }
  else if s.cmdOp = 0x4#4 then storeSweepEntry v (releaseRead s)
  else releaseRead s

/-- `rxbuf <- bs` (R171, R40). -/
def loadChunk (bs : List Byte) (s : State) : State := { s with rxbuf := bs }

/-- The rest of the step that takes a chunk: the decoder reads rxbuf, the read ends (R171), and no received byte is
kept beyond the step (R40; log 21). -/
def finishChunk (s : State) : State :=
  { finishRead (decodePositionResponse (some s.rxbuf)) s with rxbuf := [] }

/-- `DisableStep()` (R142): the torque-disable request of motor idx. -/
def disableStep (s : State) : State :=
  issuePacket (encWriteTorqueEnable (s.idx.setWidth 8) false) .dWrite s

/-- `timer <- T_DISABLE_GAP / TICK; phase <- D_GAP` (R142). -/
def beginDisableGap (s : State) : State := { s with timer := Config.disableGapTicks, phase := .dGap }

/-- Take a command that is to run (R35, R42, R89): recorded, and its fields latched. -/
def takeWord (w : HostWord) (s : State) : State :=
  record (.cmd w) { s with cmdOp := hostOp w, cmdId := hostId w, cmdOpnd := hostOpnd w }

/-- Take a command that its own check rejects (R206, R209, R210): recorded in the trace alone, since no state changes
but LAST_STATUS (log 6). -/
def takeRejected (w : HostWord) (s : State) : State := record (.cmd w) s

/-- An illegal word is taken and completes at once (R93, R207): it is recorded in the trace alone. -/
def rejectIllegal (w : HostWord) (s : State) : State := raise .illegalCommand (takeRejected w s)

/-- Take an outcome: recorded, and its request is no longer outstanding (R43, R45). -/
def takeOutcome (a : Answer) (s : State) : State := record (.answer a) { s with req := none }

/-- One tick on the timer (R217, R121): it stops at 0 and never wraps. -/
def countDown (s : State) : State :=
  { s with timer := if s.timer = 0#16 then 0#16 else s.timer - 1#16 }

/-- The level pins as a step samples them (R42, R43; log 20). -/
def sample (p : PortIn) (s : State) : State := { s with rxUsable := p.rxUsable, regSel := p.regSel }

/-- The reset pin (R230, R231): every register at its reset value and nothing issued; the trace and what the
environment drives are no registers of the block (log 9). -/
def resetByPin (s : State) : State :=
  { State.reset with rxUsable := s.rxUsable, regSel := s.regSel, trace := s.trace, inputs := s.inputs }

end Sys2Proof.Machine
end

