-- ==== Sys2Proof/Machine/Lifecycle.lean ====
section
/-! DEFINITION. The meanings of CONNECT, DISCONNECT and ISCONN (spec/41_lifecycle.md): what each does in the step that
takes it. What follows an outcome or an expiry is in Machine/Orchestrator.lean. -/

namespace Sys2Proof.Machine

/-- CONNECT, on take (R141): rejected while Connected (D12), else the open is requested. -/
def execConnect (baud : BitVec 32) (s : State) : Host.Outcome State Fault Refusal :=
  .next (if s.conn then raise .alreadyConnected s
    else issue (.openStream baud) { s with phase := .cOpen })

/-- DISCONNECT, on take (R142): a no-op while Disconnected, else the shutdown sweep starts at motor 1. -/
def execDisconnect (s : State) : Host.Outcome State Fault Refusal :=
  .next (if s.conn then disableStep { s with disableFail := 0#6, idx := 1#3 } else complete .ok s)

/-- ISCONN (R143). -/
def execIsConn (s : State) : Host.Outcome State Fault Refusal :=
  .next (complete .ok { s with resultBool := s.isConnected })

end Sys2Proof.Machine
end

