-- ==== Sys2Proof/Machine/Transactions.lean ====
section
/-! DEFINITION. The meanings of READPOS, READALL and WRITEPOS (spec/42_transactions.md): what each does in the step that
takes it. -/

namespace Sys2Proof.Machine

/-- READPOS, on take (R170). -/
def execReadPos (id : Byte) (s : State) : Host.Outcome State Fault Refusal :=
  .next (requireConnected (startRead id) s)

/-- READALL, on take (R176): one check, then motor 1; the sweep registers are not cleared (D20). -/
def execReadAll (s : State) : Host.Outcome State Fault Refusal :=
  .next (requireConnected (fun s => startRead 1#8 { s with idx := 1#3 }) s)

/-- WRITEPOS, on take (R175): `posc` is the clamped position, and the packet is built from `posc`. -/
def execWritePos (id : Byte) (opnd : BitVec 32) (s : State) : Host.Outcome State Fault Refusal :=
  .next (requireConnected
    (fun s =>
      let c := clamp (requestedPos opnd)
      issuePacket (encWritePosition id c.toNat) .wWrite { s with posc := c }) s)

end Sys2Proof.Machine
end

