-- ==== Sys2Proof/Machine/Wire.lean ====
section
/-! DEFINITION. The meanings of the wire rows (spec/40_codec.md, R84 to R87; log 7): a request is built by the codec and
put on the transport port, in the phase that awaits its outcome; a response is taken by the parser and ends the read. -/

namespace Sys2Proof.Machine

/-- REQ_READ_POS (R84, R113): the part of `StartRead` that writes the request (R171). -/
def execReqReadPos (id : Byte) (s : State) : Host.Outcome State Fault Refusal :=
  .next (issuePacket (encReadPosition id) .rWrite s)

/-- REQ_WRITE_POS (R85, R114): the part of WRITEPOS that writes the request (R175). -/
def execReqWritePos (id : Byte) (pos : BitVec 16) (s : State) : Host.Outcome State Fault Refusal :=
  .next (issuePacket (encWritePosition id pos.toNat) .wWrite s)

/-- REQ_WRITE_TORQUE (R86, R115): the part of `DisableStep` that writes the request (R142). The codec gives both
values of `enabled`; the block's own steps use 0 only. -/
def execReqWriteTorque (id : Byte) (enabled : Bool) (s : State) : Host.Outcome State Fault Refusal :=
  .next (issuePacket (encWriteTorqueEnable id enabled) .dWrite s)

/-- RESP_POS (R87, R116): `rxbuf <- bs; FinishRead(DecodePositionResponse(bs))` (R171), and rxbuf is empty again at the
step's end (R40). -/
def execRespPos (chunk : List Byte) (s : State) : Host.Outcome State Fault Refusal :=
  .next (finishChunk (loadChunk chunk s))

end Sys2Proof.Machine
end

