-- ==== Sys2Proof/Machine/Dispatch.lean ====
section
/-! DEFINITION. The dispatch: one arm per constructor of Instr. -/

namespace Sys2Proof.Machine

def exec (i : Instr) (s : State) : Host.Outcome State Fault Refusal :=
  match i with
  | .connect baud => Sys2Proof.Machine.execConnect baud s
  | .disconnect => Sys2Proof.Machine.execDisconnect s
  | .isConn => Sys2Proof.Machine.execIsConn s
  | .readPos id => Sys2Proof.Machine.execReadPos id s
  | .readAll => Sys2Proof.Machine.execReadAll s
  | .writePos id opnd => Sys2Proof.Machine.execWritePos id opnd s
  | .reqReadPos id => Sys2Proof.Machine.execReqReadPos id s
  | .reqWritePos id pos => Sys2Proof.Machine.execReqWritePos id pos s
  | .reqWriteTorque id enabled => Sys2Proof.Machine.execReqWriteTorque id enabled s
  | .respPos chunk => Sys2Proof.Machine.execRespPos chunk s

end Sys2Proof.Machine
end

