-- ==== Sys2Proof/Machine/Orchestrator.lean ====
section
/-! DEFINITION. One step of the orchestrator under one pin record: taking a command, an outcome or a tick, each by the
rule of its phase (spec/41_lifecycle.md, spec/42_transactions.md, R217). Nothing present, nothing happens. -/

namespace Sys2Proof.Machine

/-- A legal command's own check fails at the take (R210): ALREADY_CONNECTED (R206) or NOT_CONNECTED (R203). -/
def rejectedAtTake (i : Instr) (s : State) : Bool :=
  match i with
  | .connect _ => s.conn
  | .readPos _ => !s.conn
  | .readAll => !s.conn
  | .writePos _ _ => !s.conn
  | .disconnect => false
  | .isConn => false
  | .reqReadPos _ => false
  | .reqWritePos _ _ => false
  | .reqWriteTorque _ _ => false
  | .respPos _ => false

/-- Take a legal command: one that its check rejects is not latched (R206, R209; log 6), any other is (R35, R89). -/
def takeLegal (i : Instr) (w : HostWord) (s : State) : State :=
  if rejectedAtTake i s then takeRejected w s else takeWord w s

/-- Taking a command in IDLE (R42): the word is decoded and its instruction runs; an illegal word completes at once. -/
def takeCommand (w : HostWord) (s : State) : Host.Outcome State Fault Refusal :=
  match decodeHostWord w with
  | .ok i => exec i (takeLegal i w s)
  | .rejected _ => .next (rejectIllegal w s)

/-- In C_OPEN on OpenOk (R141). -/
def connectOpened (s : State) : State := complete .ok { s with conn := true, wrHeld := true }

/-- In C_OPEN on OpenErr (R141, R204). -/
def connectRefused (s : State) : State := raise .connectFailed s

/-- In R_WRITE on WriteOk (R171): the read is requested and its deadline armed. -/
def readRequestWritten (s : State) : State :=
  issue (.read Config.readMaxLen) { s with timer := Config.readTimeoutTicks, phase := .rWait }

/-- In R_WAIT on ReadData (R171): a chunk of 8 bytes or more is a RESP_POS, a shorter one is no data. -/
def takeChunk (bs : List Byte) (s : State) : Host.Outcome State Fault Refusal :=
  match decodeResponse bs with
  | .ok i => exec i s
  | .rejected _ => .next (finishChunk (loadChunk bs s))

/-- In W_WRITE on WriteOk or WriteErr (R175). -/
def writePosAnswered (ok : Bool) (s : State) : State := complete .ok { s with resultBool := ok }

/-- In D_WRITE on WriteErr (R142): recorded in DISABLE_FAIL, and the sweep goes on. -/
def disableWriteFailed (s : State) : State :=
  beginDisableGap { s with disableFail := setMotorBit s.disableFail s.idx true }

/-- In D_CLOSE on CloseOk or CloseErr (R142): Disconnected either way. -/
def closeAnswered (st : Status) (s : State) : State := complete st { s with conn := false }

/-- An outcome the phase does not await has no move (R220; log 5). -/
def noMove : Host.Outcome State Fault Refusal := .refused .unawaitedAnswer

/-- In C_OPEN, the outcome taken (R141). -/
def inCOpen (s : State) : Answer → Host.Outcome State Fault Refusal
  | .openOk => .next (connectOpened s)
  | .openErr => .next (connectRefused s)
  | _ => noMove

/-- In R_WRITE, the outcome taken (R171). -/
def inRWrite (s : State) : Answer → Host.Outcome State Fault Refusal
  | .writeOk => .next (readRequestWritten s)
  | .writeErr => .next (finishRead none s)
  | _ => noMove

/-- In R_WAIT, the outcome taken (R171). -/
def inRWait (s : State) : Answer → Host.Outcome State Fault Refusal
  | .readData bs => takeChunk bs s
  | .readEnd => .next (finishRead none s)
  | .readErr => .next (finishRead none s)
  | _ => noMove

/-- In W_WRITE, the outcome taken (R175). -/
def inWWrite (s : State) : Answer → Host.Outcome State Fault Refusal
  | .writeOk => .next (writePosAnswered true s)
  | .writeErr => .next (writePosAnswered false s)
  | _ => noMove

/-- In D_WRITE, the outcome taken (R142). -/
def inDWrite (s : State) : Answer → Host.Outcome State Fault Refusal
  | .writeOk => .next (beginDisableGap s)
  | .writeErr => .next (disableWriteFailed s)
  | _ => noMove

/-- In D_CLOSE, the outcome taken (R142). -/
def inDClose (s : State) : Answer → Host.Outcome State Fault Refusal
  | .closeOk => .next (closeAnswered .ok s)
  | .closeErr => .next (closeAnswered .closeFailed s)
  | _ => noMove

/-- Taking an outcome in the phase that awaits it (R43, R45). -/
def takeAnswer (a : Answer) (s : State) : Host.Outcome State Fault Refusal :=
  match s.phase with
  | .cOpen => inCOpen (takeOutcome a s) a
  | .rWrite => inRWrite (takeOutcome a s) a
  | .rWait => inRWait (takeOutcome a s) a
  | .wWrite => inWWrite (takeOutcome a s) a
  | .dWrite => inDWrite (takeOutcome a s) a
  | .dClose => inDClose (takeOutcome a s) a
  | .idle => noMove
  | .sGap => noMove
  | .dGap => noMove

/-- In R_WAIT on Expire (R171, R172). -/
def readExpired (s : State) : State := finishRead none (tCancel (record .expire s))

/-- In S_GAP on Expire (R176): the next motor's read, or the end of the sweep. -/
def sweepGapExpired (s : State) : State :=
  let s := record .expire s
  if s.idx < 6#3 then startRead ((s.idx + 1#3).setWidth 8) { s with idx := s.idx + 1#3 }
  else complete .ok s

/-- In D_GAP on Expire (R142): the next motor's torque-disable, or the release of write access and the close. -/
def disableGapExpired (s : State) : State :=
  let s := record .expire s
  if s.idx < 6#3 then disableStep { s with idx := s.idx + 1#3 }
  else issue .closeStream { releaseWrite s with phase := .dClose }

/-- The timed phases (R217). -/
def Phase.timed : Phase → Bool
  | .rWait => true
  | .sGap => true
  | .dGap => true
  | .idle => false
  | .cOpen => false
  | .rWrite => false
  | .wWrite => false
  | .dWrite => false
  | .dClose => false

/-- Taking the expiry in a timed phase (R217). -/
def takeExpiry (s : State) : State :=
  match s.phase with
  | .rWait => readExpired s
  | .sGap => sweepGapExpired s
  | .dGap => disableGapExpired s
  | .idle => s
  | .cOpen => s
  | .rWrite => s
  | .wWrite => s
  | .dWrite => s
  | .dClose => s

/-- The tick of a step (R217): counted in a timed phase, ignored elsewhere. -/
def countTick (tick : Bool) (s : State) : State := if tick && s.phase.timed then countDown s else s

/-- The timer reaches 0 in this step (R217). -/
def expires (tick : Bool) (s : State) : Bool :=
  tick && s.phase.timed && decide ((countDown s).timer = 0#16)

/-- Whether an outcome of a read is one of `n` bytes at most, or none (R43). -/
def Answer.ofRead (n : Nat) : Answer → Bool
  | .readData bs => decide (1 ≤ bs.length) && decide (bs.length ≤ n)
  | .readEnd => true
  | .readErr => true
  | _ => false

/-- Whether an outcome answers a request (R43, R219): the kind fits, and a chunk has 1 to n bytes. -/
def Answer.answers (a : Answer) : Request → Bool
  | .openStream _ => decide (a = .openOk) || decide (a = .openErr)
  | .write _ => decide (a = .writeOk) || decide (a = .writeErr)
  | .read n => a.ofRead n
  | .closeStream => decide (a = .closeOk) || decide (a = .closeErr)

/-- Whether an outcome answers the outstanding request; nothing answers where none is outstanding (R69). -/
def Answer.fits (a : Answer) : Option Request → Bool
  | none => false
  | some r => a.answers r

/-- A chunk of any length. -/
def Answer.isChunk : Answer → Bool
  | .readData _ => true
  | _ => false

/-- The refusal's name for an outcome that does not fit (log 5). -/
def Answer.refusal (a : Answer) : Option Request → Refusal
  | some (.read _) => if a.isChunk then .chunkOutOfRange else .unawaitedAnswer
  | _ => .unawaitedAnswer

/-- One step with this pin record, the level pins sampled (log 20): an outcome, else an expiry, else a command. A read's
outcome that meets the expiry wins or loses as the environment chooses (R172; log 4). -/
def orchestrate (p : PortIn) (s : State) : Host.Outcome State Fault Refusal :=
  match p.answer with
  | some a =>
    if a.fits s.req then
      if expires p.tick s && !p.answerWins then .next (takeExpiry (countTick p.tick s))
      else takeAnswer a (countTick p.tick s)
    else .refused (a.refusal s.req)
  | none =>
    if expires p.tick s then .next (takeExpiry (countTick p.tick s))
    else
      match p.cmd with
      | some w => if s.cmdReady then takeCommand w s else .next (countTick p.tick s)
      | none => .next (countTick p.tick s)

/-- One step under a pin record (R12): reset overrides everything (R212, R230). -/
def stepPins (p : PortIn) (s : State) : Host.Outcome State Fault Refusal :=
  if p.reset then .next (resetByPin (sample p s)) else orchestrate p (sample p s)

/-- The pin record that holds the levels as they are and presents nothing. -/
def State.quietPins (s : State) : PortIn := { regSel := s.regSel, rxUsable := s.rxUsable }

/-- The host offers `w` while the block is idle, in the next step. -/
def State.offerWord (s : State) (w : HostWord) : State :=
  { s with phase := .idle, inputs := { s.quietPins with cmd := some w } :: s.inputs }

/-- The state in which the next step issues or takes a packet of the wire layer, as the block's rules let it (log 7):
the step that takes READPOS or WRITEPOS while Connected, the expiry of the disable gap before the motor, the wait for
a read. A torque packet that the block never issues (R115) has no such step: its code is offered as a word. -/
def State.withInstr (s : State) (i : Instr) (w : HostWord) : State :=
  match i with
  | .reqReadPos id => { s with conn := true }.offerWord (hostWordOf 0x3#4 id 0#32)
  | .reqWritePos id pos => { s with conn := true }.offerWord (hostWordOf 0x5#4 id (pos.setWidth 32))
  | .reqWriteTorque id enabled =>
    if enabled = false ∧ 1#8 ≤ id ∧ id ≤ 6#8 then
      { s with phase := .dGap, idx := id.setWidth 3 - 1#3, timer := 1#16,
               inputs := { s.quietPins with tick := true } :: s.inputs }
    else s.offerWord w
  | .respPos chunk =>
    { s with phase := .rWait, cmdOp := 0x3#4, rdHeld := true, req := some (.read chunk.length),
             inputs := { s.quietPins with answer := some (.readData chunk) } :: s.inputs }
  | .connect _ => s.offerWord w
  | .disconnect => s.offerWord w
  | .isConn => s.offerWord w
  | .readPos _ => s.offerWord w
  | .readAll => s.offerWord w
  | .writePos _ _ => s.offerWord w

end Sys2Proof.Machine
end

