-- ==== Sys2Proof/Machine/Step.lean ====
section
/-! DEFINITION. The step: it takes the next pin record of the environment, and does nothing where there is none. -/

namespace Sys2Proof.Machine

/-- One step (R12, R221; log 1). -/
def step (s : State) : Host.Outcome State Fault Refusal :=
  match s.inputs with
  | [] => .next s
  | p :: rest => stepPins p { s with inputs := rest }

/-- The state in which the very next step runs the instruction of a table word (log 7, log 8). A word with no
instruction is offered on the host port, where the block takes it as illegal (R93). -/
def State.withFetchWord (s : State) (nbits w : Nat) : State :=
  match decodeTableWord nbits w with
  | some i => s.withInstr i (BitVec.ofNat 64 w)
  | none => s.offerWord (BitVec.ofNat 64 w)

end Sys2Proof.Machine
end

