-- ==== Sys2Proof/Machine/Assembler.lean ====
section
/-! DEFINITION. The assembler of host command programs (R95): a line's word, and a line's text. Where R95 is silent on
the text (spaces, blank lines, capitals) log 19 says what is chosen. -/

namespace Sys2Proof.Machine

/-- The instruction a line stands for, its operands cut to their fields (R95). -/
def lineInstr : Line → Instr
  | .connect baud => .connect (BitVec.ofInt 32 baud)
  | .disconnect => .disconnect
  | .isConn => .isConn
  | .readPos id => .readPos (BitVec.ofInt 8 id)
  | .readAll => .readAll
  | .writePos id pos => .writePos (BitVec.ofInt 8 id) (BitVec.ofInt 32 pos)

/-- The word of a host command's code (R95: all other bits 0). -/
def codeWord? : Code → Option HostWord
  | .hostWord w => some w
  | .request _ => none
  | .response _ => none

/-- Assemble a line (R95): one with an operand out of its range does not assemble. -/
def assembleLine (l : Line) : Option HostWord :=
  if l.wf then codeWord? (encode (lineInstr l)) else none

/-- Close a token. -/
def closeToken (acc : List Char) (rest : List (List Char)) : List (List Char) :=
  if acc = [] then rest else acc.reverse :: rest

/-- The tokens of a line: separated by blanks, a comma is a token, `;` starts a comment (R95). -/
def tokens (acc : List Char) : List Char → List (List Char)
  | [] => closeToken acc []
  | c :: cs =>
    if c = ';' then closeToken acc []
    else if c = ' ' ∨ c = '\t' then closeToken acc (tokens [] cs)
    else if c = ',' then closeToken acc ([','] :: tokens [] cs)
    else tokens (c :: acc) cs

/-- A digit in a base up to 16. -/
def digitOf (base : Nat) (c : Char) : Option Nat :=
  let n := c.toNat
  let d := if 48 ≤ n ∧ n ≤ 57 then n - 48
    else if 97 ≤ n ∧ n ≤ 102 then n - 87
    else if 65 ≤ n ∧ n ≤ 70 then n - 55
    else base
  if d < base then some d else none

/-- The digits of a number, the most significant first. -/
def digitsOf (base acc : Nat) : List Char → Option Nat
  | [] => some acc
  | c :: cs => match digitOf base c with
    | some d => digitsOf base (acc * base + d) cs
    | none => none

/-- An unsigned integer: decimal, or hex after `0x` (R95). -/
def parseNat : List Char → Option Nat
  | [] => none
  | [c] => digitsOf 10 0 [c]
  | '0' :: 'x' :: c :: cs => digitsOf 16 0 (c :: cs)
  | c :: cs => digitsOf 10 0 (c :: cs)

/-- An integer, with an optional minus sign (R95). -/
def parseInt : List Char → Option Int
  | '-' :: cs => (parseNat cs).map fun n => -(n : Int)
  | cs => (parseNat cs).map fun n => (n : Int)

/-- A line's tokens as a line (R95). -/
def parseLine : List (List Char) → Option Line
  | [m] =>
    if m = "DISCONNECT".toList then some .disconnect
    else if m = "ISCONN".toList then some .isConn
    else if m = "READALL".toList then some .readAll
    else none
  | [m, a] =>
    if m = "CONNECT".toList then (parseInt a).map .connect
    else if m = "READPOS".toList then (parseInt a).map .readPos
    else none
  | [m, a, comma, b] =>
    if m = "WRITEPOS".toList ∧ comma = [','] then
      match parseInt a, parseInt b with
      | some id, some pos => some (.writePos id pos)
      | _, _ => none
    else none
  | _ => none

/-- Assemble a program's lines (R95): one command per line, a line without tokens gives no word. DESIGN CHOICE (log 19):
one line that does not assemble leaves the whole program without words, where R95 speaks of that line alone. -/
def assembleProgram : List (List Char) → Option (List HostWord)
  | [] => some []
  | l :: ls =>
    match tokens [] l with
    | [] => assembleProgram ls
    | ts =>
      match (parseLine ts).bind assembleLine, assembleProgram ls with
      | some w, some ws => some (w :: ws)
      | _, _ => none

end Sys2Proof.Machine
end

