-- ==== Sys2Proof/Safety.lean ====
section
/-! DEFINITION. The terms in which the statements speak: the invariant of every run, the environment moves the spec
allows, what a step keeps, and the environment's scripts of a whole sweep. -/

namespace Sys2Proof.Machine

/-- The state a step works on: the pin record taken from the inputs and its level pins sampled. -/
def State.after (s : State) (p : PortIn) (rest : List PortIn) : State :=
  { s with inputs := rest, rxUsable := p.rxUsable, regSel := p.regSel }

/-- The next step takes `p`, without reset, with this outcome. -/
def State.answered (s : State) (p : PortIn) (rest : List PortIn) (a : Answer) : Prop :=
  s.inputs = p :: rest ∧ p.reset = false ∧ p.answer = some a

/-- A read's outcome is in time: the step's tick does not end the deadline, or the environment lets the outcome win the
tie (R172). -/
def State.inTime (s : State) (p : PortIn) : Prop := expires p.tick s = false ∨ p.answerWins = true

/-- The next step takes `p`, without reset and without an outcome, and its tick is the last of the running timer. -/
def State.expiring (s : State) (p : PortIn) (rest : List PortIn) : Prop :=
  s.inputs = p :: rest ∧ p.reset = false ∧ p.answer = none ∧ p.tick = true ∧ s.timer = 1#16

/-- The next step takes `p`, without reset and without an outcome, and offers `w` to the idle block. -/
def State.offered (s : State) (p : PortIn) (rest : List PortIn) (w : HostWord) : Prop :=
  s.inputs = p :: rest ∧ p.reset = false ∧ p.answer = none ∧ p.cmd = some w ∧ s.phase = .idle

/-- The request that is outstanding in a phase (R34, R43). -/
def State.awaited (s : State) : Option Request :=
  match s.phase with
  | .idle => none
  | .cOpen => some (.openStream s.cmdOpnd)
  | .rWrite => some (.write s.txbuf)
  | .rWait => some (.read Config.readMaxLen)
  | .sGap => none
  | .wWrite => some (.write s.txbuf)
  | .dWrite => some (.write s.txbuf)
  | .dGap => none
  | .dClose => some .closeStream

/-- The motor a read transaction addresses: the command's for READPOS, the sweep's for READALL (R170, R176). -/
def State.readingId (s : State) : Byte := if s.cmdOp = 0x3#4 then s.cmdId else s.idx.setWidth 8

/-- A phase of the shutdown sweep or of the read sweep, where idx names a motor (R37). -/
def State.sweeping (s : State) : Bool :=
  match s.phase with
  | .rWrite => decide (s.cmdOp = 0x4#4)
  | .rWait => decide (s.cmdOp = 0x4#4)
  | .sGap => true
  | .dWrite => true
  | .dGap => true
  | .dClose => true
  | .idle => false
  | .cOpen => false
  | .wWrite => false

/-- The command that is running in each phase, and whether the handle is held there (R34, R140, R144). -/
def State.commandOk (s : State) : Prop :=
  match s.phase with
  | .idle => True
  | .cOpen => s.cmdOp = opConnect ∧ s.conn = false
  | .rWrite => (s.cmdOp = opReadPos ∨ s.cmdOp = opReadAll) ∧ s.conn = true
  | .rWait => (s.cmdOp = opReadPos ∨ s.cmdOp = opReadAll) ∧ s.conn = true
  | .sGap => s.cmdOp = opReadAll ∧ s.conn = true
  | .wWrite => s.cmdOp = opWritePos ∧ s.conn = true ∧ s.posc = clamp (requestedPos s.cmdOpnd)
  | .dWrite => s.cmdOp = opDisconnect ∧ s.conn = true
  | .dGap => s.cmdOp = opDisconnect ∧ s.conn = true
  | .dClose => s.cmdOp = opDisconnect ∧ s.conn = true

/-- The packet in txbuf while it is being written (R39, R171, R175, R142). -/
def State.packetOk (s : State) : Prop :=
  match s.phase with
  | .rWrite => s.txbuf = encReadPosition s.readingId
  | .wWrite => s.txbuf = encWritePosition s.cmdId (requestedPos s.cmdOpnd)
  | .dWrite => s.txbuf = encWriteTorqueEnable (s.idx.setWidth 8) false
  | .idle => True
  | .cOpen => True
  | .rWait => True
  | .sGap => True
  | .dGap => True
  | .dClose => True

/-- The running timer is between 1 and its load (R38, R121, R217). -/
def State.timerOk (s : State) : Prop :=
  match s.phase with
  | .rWait => 1 ≤ s.timer.toNat ∧ s.timer.toNat ≤ 2000
  | .sGap => 1 ≤ s.timer.toNat ∧ s.timer.toNat ≤ 50
  | .dGap => 1 ≤ s.timer.toNat ∧ s.timer.toNat ≤ 20
  | .idle => True
  | .cOpen => True
  | .rWrite => True
  | .wWrite => True
  | .dWrite => True
  | .dClose => True

/-- Motors whose torque-disable write has not been attempted in the running sweep (R32). -/
def State.unattempted (s : State) (motor : Nat) : Prop :=
  match s.phase with
  | .dWrite => s.idx.toNat ≤ motor
  | .dGap => s.idx.toNat < motor
  | .idle => False
  | .cOpen => False
  | .rWrite => False
  | .rWait => False
  | .sGap => False
  | .wWrite => False
  | .dClose => False

/-- What holds in every state a run reaches, and is kept by every step from any state that meets it. -/
structure State.Inv (s : State) : Prop where
  /-- WR_HELD is CONN but for the last phase of a DISCONNECT (R26). -/
  writeHold : s.wrHeld = (s.conn && decide (s.phase ≠ .dClose))
  /-- RD_HELD exactly in the phases of a read transaction (R27, R171). -/
  readHold : s.rdHeld = (decide (s.phase = .rWrite) || decide (s.phase = .rWait))
  /-- The outstanding request is the one the phase awaits (R34, R69). -/
  outstanding : s.req = s.awaited
  /-- The latched command is one that has the phase (R34, R35). -/
  command : s.commandOk
  /-- txbuf holds the packet being written (R39). -/
  packet : s.packetOk
  /-- txbuf is empty or one of the three request shapes (R39, R94). -/
  shape : s.txbuf = [] ∨ ∃ i, decodeRequest s.txbuf = .ok i
  /-- rxbuf is empty between the steps (R40). -/
  received : s.rxbuf = []
  /-- idx names a motor in a sweep, and never passes 6 (R37, R121). -/
  motor : s.idx ≤ 6#3 ∧ (s.sweeping = true → 1#3 ≤ s.idx)
  /-- The timer never runs at 0 (R121, R217). -/
  timing : s.timerOk
  /-- A RESULT_POS that is not valid is 0 (R30). -/
  result : s.resultPos.getLsbD 16 = false → s.resultPos = 0#17
  /-- A sweep entry that is not valid is 0 (R31). -/
  sweep : ∀ i : Fin 6, s.sweepValid.getLsbD i = false → s.sweepPos[i] = 0#16
  /-- A motor not yet attempted has no failure bit (R32). -/
  disable : ∀ i : Fin 6, s.unattempted (i + 1) → s.disableFail.getLsbD i = false

/-- An outcome that R219 allows in this phase; R220 gives every other one no move. -/
def State.allows (s : State) (a : Answer) : Bool :=
  match s.phase with
  | .cOpen => decide (a = .openOk) || decide (a = .openErr)
  | .rWrite => decide (a = .writeOk) || decide (a = .writeErr)
  | .rWait => a.ofRead Config.readMaxLen
  | .wWrite => decide (a = .writeOk) || decide (a = .writeErr)
  | .dWrite => decide (a = .writeOk) || decide (a = .writeErr)
  | .dClose => decide (a = .closeOk) || decide (a = .closeErr)
  | .idle => false
  | .sGap => false
  | .dGap => false

/-- The phases that wait for a transport outcome without a deadline (R219). -/
def Phase.unbounded : Phase → Bool
  | .cOpen => true
  | .rWrite => true
  | .wWrite => true
  | .dWrite => true
  | .dClose => true
  | .idle => false
  | .rWait => false
  | .sGap => false
  | .dGap => false

/-- A pin record with no reset and no outcome: whatever the host and the timer do. -/
def PortIn.silent (p : PortIn) : Bool := !p.reset && p.answer.isNone

/-- Why a read transaction in R_WAIT ends with no data (R174): no more data, an error, a short chunk, the deadline. -/
def PortIn.noData (p : PortIn) (s : State) : Prop :=
  p.reset = false ∧
    ((p.tick = false ∧ (p.answer = some .readEnd ∨ p.answer = some .readErr ∨
        ∃ bs, p.answer = some (.readData bs) ∧ 1 ≤ bs.length ∧ bs.length < 8)) ∨
      (p.answer = none ∧ p.tick = true ∧ s.timer = 1#16))

/-- The packets written in a trace, in order. -/
def writtenIn (tr : List Event) : List (List Byte) :=
  tr.filterMap fun e => match e with
    | .request (.write p) => some p
    | _ => none

/-- A pin record that answers the outstanding request. -/
def answerPins (a : Answer) : PortIn := { answer := some a }

/-- `n` pin records that tick. -/
def tickPins (n : Nat) : List PortIn := List.replicate n { tick := true }

/-- The environment of one motor's disable step: its write fails or not, then the gap. -/
def disableScript (fails : Bool) : List PortIn :=
  answerPins (if fails then .writeErr else .writeOk) :: tickPins 20

/-- How a motor's read transaction goes in a sweep (R171, R208). -/
inductive ReadFate where
  | writeFails
  | chunk (bytes : List Byte)
  | ends
  | fails
  | deadline
deriving DecidableEq, Repr

/-- The environment of one motor's read in a sweep, then the gap. -/
def readScript : ReadFate → List PortIn
  | .writeFails => answerPins .writeErr :: tickPins 50
  | .chunk bs => answerPins .writeOk :: answerPins (.readData bs) :: tickPins 50
  | .ends => answerPins .writeOk :: answerPins .readEnd :: tickPins 50
  | .fails => answerPins .writeOk :: answerPins .readErr :: tickPins 50
  | .deadline => answerPins .writeOk :: (tickPins 2000 ++ tickPins 50)

/-- The result of a motor's read (R116, R208). -/
def ReadFate.result : ReadFate → Option (BitVec 16)
  | .writeFails => none
  | .chunk bs => decodePositionResponse (some bs)
  | .ends => none
  | .fails => none
  | .deadline => none

/-- A chunk the transport may return (R43, R219). -/
def ReadFate.possible : ReadFate → Prop
  | .writeFails => True
  | .chunk bs => 1 ≤ bs.length ∧ bs.length ≤ Config.readMaxLen
  | .ends => True
  | .fails => True
  | .deadline => True

end Sys2Proof.Machine
end

