-- ==== Sys2Proof/Certificates/Slice0/Obligations.lean ====
section
/-! DEFINITION. The statements. Each result statement writes the whole next state as an update of the state before, so
it is the instruction's completion, its result and its frame in one: every field it does not name is unchanged. -/

open Sys2Proof Sys2Proof.Machine

/-! ### The commands, each by its rule -/

/-- CONNECT (R141), every clause: its code, the take in both lifecycle states, both outcomes of the open, and no step
without one. -/
def Obligations.ConnectFollowsItsRule : Prop :=
  (∀ (id : Byte) (opnd : BitVec 32), decodeHostWord (opnd ++ 0#16 ++ id ++ 0x00#8) = .ok (.connect opnd)) ∧
  (∀ (baud : BitVec 32) (s : State), s.conn = true → exec (.connect baud) s =
    .next { s with lastStatus := .alreadyConnected, phase := .idle, trace := s.trace ++ [.done .alreadyConnected] }) ∧
  (∀ (baud : BitVec 32) (s : State), s.conn = false → exec (.connect baud) s =
    .next { s with phase := .cOpen, req := some (.openStream baud),
                   trace := s.trace ++ [.request (.openStream baud)] }) ∧
  (∀ (s : State) (p : PortIn) (rest : List PortIn) (baud : BitVec 32), s.phase = .cOpen →
      s.req = some (.openStream baud) → s.answered p rest .openOk → step s =
    .next { s.after p rest with conn := true, wrHeld := true, req := none, lastStatus := .ok, phase := .idle,
                                trace := s.trace ++ [.answer .openOk, .done .ok] }) ∧
  (∀ (s : State) (p : PortIn) (rest : List PortIn) (baud : BitVec 32), s.phase = .cOpen →
      s.req = some (.openStream baud) → s.answered p rest .openErr → step s =
    .next { s.after p rest with req := none, lastStatus := .connectFailed, phase := .idle,
                                trace := s.trace ++ [.answer .openErr, .done .connectFailed] }) ∧
  (∀ (s : State) (p : PortIn) (rest : List PortIn), s.phase = .cOpen → s.inputs = p :: rest → p.silent = true →
    step s = .next (s.after p rest))

/-- DISCONNECT (R142), every clause: its code, the take in both lifecycle states, both outcomes of a torque-disable
write, the end of the gap before and after the sixth motor, both outcomes of the close, and no step without one. The
gap's 20 ticks are the default of T_DISABLE_GAP (R7, R38), which is the model's choice (log 3). -/
def Obligations.DisconnectFollowsItsRule : Prop :=
  (∀ (id : Byte) (opnd : BitVec 32), decodeHostWord (opnd ++ 0#16 ++ id ++ 0x01#8) = .ok .disconnect) ∧
  (∀ (s : State), s.conn = false → exec .disconnect s =
    .next { s with lastStatus := .ok, phase := .idle, trace := s.trace ++ [.done .ok] }) ∧
  (∀ (s : State), s.conn = true → exec .disconnect s =
    .next { s with disableFail := 0#6, idx := 1#3, txbuf := encWriteTorqueEnable 1#8 false, phase := .dWrite,
                   req := some (.write (encWriteTorqueEnable 1#8 false)),
                   trace := s.trace ++ [.request (.write (encWriteTorqueEnable 1#8 false))] }) ∧
  (∀ (s : State) (p : PortIn) (rest : List PortIn) (bs : List Byte), s.phase = .dWrite → s.req = some (.write bs) →
      s.answered p rest .writeOk → step s =
    .next { s.after p rest with req := none, timer := 20#16, phase := .dGap,
                                trace := s.trace ++ [.answer .writeOk] }) ∧
  (∀ (s : State) (p : PortIn) (rest : List PortIn) (bs : List Byte), s.phase = .dWrite → s.req = some (.write bs) →
      1#3 ≤ s.idx → s.idx ≤ 6#3 →
    s.answered p rest .writeErr → step s =
    .next { s.after p rest with disableFail := s.disableFail ||| 1#6 <<< (s.idx.toNat - 1), req := none,
                                timer := 20#16, phase := .dGap, trace := s.trace ++ [.answer .writeErr] }) ∧
  (∀ (s : State) (p : PortIn) (rest : List PortIn), s.phase = .dGap → s.idx < 6#3 → s.expiring p rest → step s =
    .next { s.after p rest with
      idx := s.idx + 1#3, timer := 0#16, phase := .dWrite,
      txbuf := encWriteTorqueEnable ((s.idx + 1#3).setWidth 8) false,
      req := some (.write (encWriteTorqueEnable ((s.idx + 1#3).setWidth 8) false)),
      trace := s.trace ++ [.expire, .request (.write (encWriteTorqueEnable ((s.idx + 1#3).setWidth 8) false))] }) ∧
  (∀ (s : State) (p : PortIn) (rest : List PortIn), s.phase = .dGap → s.idx = 6#3 → s.expiring p rest → step s =
    .next { s.after p rest with wrHeld := false, timer := 0#16, phase := .dClose, req := some .closeStream,
                                trace := s.trace ++ [.expire, .relWr, .request .closeStream] }) ∧
  (∀ (s : State) (p : PortIn) (rest : List PortIn), s.phase = .dClose → s.req = some .closeStream →
      s.answered p rest .closeOk → step s =
    .next { s.after p rest with conn := false, req := none, lastStatus := .ok, phase := .idle,
                                trace := s.trace ++ [.answer .closeOk, .done .ok] }) ∧
  (∀ (s : State) (p : PortIn) (rest : List PortIn), s.phase = .dClose → s.req = some .closeStream →
      s.answered p rest .closeErr → step s =
    .next { s.after p rest with conn := false, req := none, lastStatus := .closeFailed, phase := .idle,
                                trace := s.trace ++ [.answer .closeErr, .done .closeFailed] }) ∧
  (∀ (s : State) (p : PortIn) (rest : List PortIn), s.phase = .dWrite ∨ s.phase = .dClose → s.inputs = p :: rest →
    p.silent = true → step s = .next (s.after p rest))

/-- ISCONN (R143): its code, and its effect in both lifecycle states. -/
def Obligations.IsConnReportsHandleAndReadSide : Prop :=
  (∀ (id : Byte) (opnd : BitVec 32), decodeHostWord (opnd ++ 0#16 ++ id ++ 0x02#8) = .ok .isConn) ∧
  (∀ (s : State), exec .isConn s =
    .next { s with resultBool := s.conn && s.rxUsable, lastStatus := .ok, phase := .idle,
                   trace := s.trace ++ [.done .ok] })

/-- READPOS at the take (R170, R144), with `StartRead` (R171) written out. -/
def Obligations.ReadPosStartsItsRead : Prop :=
  (∀ (id : Byte) (s : State), s.conn = false → exec (.readPos id) s =
    .next { s with lastStatus := .notConnected, phase := .idle, trace := s.trace ++ [.done .notConnected] }) ∧
  (∀ (id : Byte) (s : State), s.conn = true → exec (.readPos id) s =
    .next { s with rdHeld := true, txbuf := encReadPosition id, phase := .rWrite,
                   req := some (.write (encReadPosition id)),
                   trace := s.trace ++ [.acqRd, .request (.write (encReadPosition id))] })

/-- READALL (R176, R177): the take, and the end of the sweep gap before and after the sixth motor. -/
def Obligations.ReadAllFollowsItsRule : Prop :=
  (∀ (s : State), s.conn = false → exec .readAll s =
    .next { s with lastStatus := .notConnected, phase := .idle, trace := s.trace ++ [.done .notConnected] }) ∧
  (∀ (s : State), s.conn = true → exec .readAll s =
    .next { s with idx := 1#3, rdHeld := true, txbuf := encReadPosition 1#8, phase := .rWrite,
                   req := some (.write (encReadPosition 1#8)),
                   trace := s.trace ++ [.acqRd, .request (.write (encReadPosition 1#8))] }) ∧
  (∀ (s : State) (p : PortIn) (rest : List PortIn), s.phase = .sGap → s.idx < 6#3 → s.expiring p rest → step s =
    .next { s.after p rest with
      idx := s.idx + 1#3, timer := 0#16, rdHeld := true, phase := .rWrite,
      txbuf := encReadPosition ((s.idx + 1#3).setWidth 8),
      req := some (.write (encReadPosition ((s.idx + 1#3).setWidth 8))),
      trace := s.trace ++ [.expire, .acqRd, .request (.write (encReadPosition ((s.idx + 1#3).setWidth 8)))] }) ∧
  (∀ (s : State) (p : PortIn) (rest : List PortIn), s.phase = .sGap → s.idx = 6#3 → s.expiring p rest → step s =
    .next { s.after p rest with timer := 0#16, lastStatus := .ok, phase := .idle,
                                trace := s.trace ++ [.expire, .done .ok] })

/-- WRITEPOS (R175), every clause: its code, the take in both lifecycle states, both outcomes of the write, and no step
without one. -/
def Obligations.WritePosFollowsItsRule : Prop :=
  (∀ (id : Byte) (opnd : BitVec 32), decodeHostWord (opnd ++ 0#16 ++ id ++ 0x05#8) = .ok (.writePos id opnd)) ∧
  (∀ (id : Byte) (opnd : BitVec 32) (s : State), s.conn = false → exec (.writePos id opnd) s =
    .next { s with lastStatus := .notConnected, phase := .idle, trace := s.trace ++ [.done .notConnected] }) ∧
  (∀ (id : Byte) (opnd : BitVec 32) (s : State), s.conn = true → exec (.writePos id opnd) s =
    .next { s with posc := clamp opnd.toInt, txbuf := encWritePosition id opnd.toInt, phase := .wWrite,
                   req := some (.write (encWritePosition id opnd.toInt)),
                   trace := s.trace ++ [.request (.write (encWritePosition id opnd.toInt))] }) ∧
  (∀ (s : State) (p : PortIn) (rest : List PortIn) (bs : List Byte), s.phase = .wWrite → s.req = some (.write bs) →
      s.answered p rest .writeOk → step s =
    .next { s.after p rest with resultBool := true, req := none, lastStatus := .ok, phase := .idle,
                                trace := s.trace ++ [.answer .writeOk, .done .ok] }) ∧
  (∀ (s : State) (p : PortIn) (rest : List PortIn) (bs : List Byte), s.phase = .wWrite → s.req = some (.write bs) →
      s.answered p rest .writeErr → step s =
    .next { s.after p rest with resultBool := false, req := none, lastStatus := .ok, phase := .idle,
                                trace := s.trace ++ [.answer .writeErr, .done .ok] }) ∧
  (∀ (s : State) (p : PortIn) (rest : List PortIn), s.phase = .wWrite → s.inputs = p :: rest → p.silent = true →
    step s = .next (s.after p rest))

/-- The read transaction of a READPOS (R171, with R30's register form): the write's two outcomes, the read's three, the
deadline. An outcome that meets the deadline in one step is in time where the environment lets it win (R172). That the
step's tick is counted and that no Expire is recorded then is the model's choice (log 4). A chunk leaves rxbuf empty
(R40; log 21). -/
def Obligations.ReadTransactionOfReadPos : Prop :=
  (∀ (s : State) (p : PortIn) (rest : List PortIn) (bs : List Byte), s.phase = .rWrite → s.req = some (.write bs) →
      s.answered p rest .writeOk → step s =
    .next { s.after p rest with req := some (.read Config.readMaxLen), timer := 2000#16, phase := .rWait,
                                trace := s.trace ++ [.answer .writeOk, .request (.read Config.readMaxLen)] }) ∧
  (∀ (s : State) (p : PortIn) (rest : List PortIn) (bs : List Byte), s.phase = .rWrite → s.req = some (.write bs) →
      s.cmdOp = opReadPos →
    s.answered p rest .writeErr → step s =
    .next { s.after p rest with rdHeld := false, resultPos := 0#17, req := none, lastStatus := .ok, phase := .idle,
                                trace := s.trace ++ [.answer .writeErr, .relRd, .done .ok] }) ∧
  (∀ (s : State) (p : PortIn) (rest : List PortIn) (n : Nat) (bs : List Byte), s.phase = .rWait →
      s.req = some (.read n) → s.cmdOp = opReadPos → 1 ≤ bs.length → bs.length ≤ n →
    s.inTime p → s.answered p rest (.readData bs) → step s =
    .next { s.after p rest with
      rdHeld := false, rxbuf := [], req := none, lastStatus := .ok, phase := .idle,
      timer := (countTick p.tick s).timer,
      resultPos := if bs.length < 8 then 0#17 else 1#1 ++ (bs.getD 6 0#8 ++ bs.getD 5 0#8),
      trace := s.trace ++ [.answer (.readData bs), .relRd, .done .ok] }) ∧
  (∀ (s : State) (p : PortIn) (rest : List PortIn) (n : Nat) (a : Answer), s.phase = .rWait →
      s.req = some (.read n) → s.cmdOp = opReadPos → a = .readEnd ∨ a = .readErr →
    s.inTime p → s.answered p rest a → step s =
    .next { s.after p rest with
      rdHeld := false, resultPos := 0#17, req := none, lastStatus := .ok, phase := .idle,
      timer := (countTick p.tick s).timer, trace := s.trace ++ [.answer a, .relRd, .done .ok] }) ∧
  (∀ (s : State) (p : PortIn) (rest : List PortIn), s.phase = .rWait → s.cmdOp = opReadPos → s.expiring p rest →
      step s =
    .next { s.after p rest with
      rdHeld := false, resultPos := 0#17, req := none, timer := 0#16, lastStatus := .ok, phase := .idle,
      trace := s.trace ++ [.expire, .cancel, .relRd, .done .ok] })

/-- A motor's read in a READALL ends (R171, R31): entry idx is written, the others are not, and the gap begins. With a
chunk in time; with no data in R_WAIT; with the request's write failed. An outcome that meets the deadline in one step
is in time where the environment lets it win (R172). That no Expire is recorded then is the model's choice (log 4), and
the gap's 50 ticks are its default (log 3). A chunk leaves rxbuf empty (R40; log 21). -/
def Obligations.ReadTransactionOfReadAll : Prop :=
  ∀ (s : State) (p : PortIn) (rest : List PortIn), s.cmdOp = opReadAll → 1#3 ≤ s.idx → s.idx ≤ 6#3 →
    (∀ (n : Nat) (bs : List Byte), s.phase = .rWait → s.req = some (.read n) → 1 ≤ bs.length → bs.length ≤ n →
      s.inTime p → s.answered p rest (.readData bs) →
      ∃ (v : BitVec 6) (f : Vector (BitVec 16) 6), step s =
        .next { s.after p rest with rdHeld := false, rxbuf := [], req := none, sweepValid := v, sweepPos := f,
                                    timer := 50#16, phase := .sGap,
                                    trace := s.trace ++ [.answer (.readData bs), .relRd] } ∧
        ∀ i : Fin 6, (i.val + 1 ≠ s.idx.toNat → v.getLsbD i = s.sweepValid.getLsbD i ∧ f[i] = s.sweepPos[i]) ∧
          (i.val + 1 = s.idx.toNat → v.getLsbD i = decide (8 ≤ bs.length) ∧
            f[i] = if bs.length < 8 then 0#16 else bs.getD 6 0#8 ++ bs.getD 5 0#8)) ∧
    (∀ (tr : List Event),
      (s.phase = .rWait ∧ s.expiring p rest ∧ tr = [.expire, .cancel, .relRd]) ∨
      (∃ (n : Nat) (a : Answer), s.phase = .rWait ∧ s.req = some (.read n) ∧ (a = .readEnd ∨ a = .readErr) ∧
        s.inTime p ∧ s.answered p rest a ∧ tr = [.answer a, .relRd]) ∨
      (∃ bs : List Byte, s.phase = .rWrite ∧ s.req = some (.write bs) ∧ s.answered p rest .writeErr ∧
        tr = [.answer .writeErr, .relRd]) →
      ∃ (v : BitVec 6) (f : Vector (BitVec 16) 6), step s =
        .next { s.after p rest with rdHeld := false, req := none, sweepValid := v, sweepPos := f,
                                    timer := 50#16, phase := .sGap, trace := s.trace ++ tr } ∧
        ∀ i : Fin 6, (i.val + 1 ≠ s.idx.toNat → v.getLsbD i = s.sweepValid.getLsbD i ∧ f[i] = s.sweepPos[i]) ∧
          (i.val + 1 = s.idx.toNat → v.getLsbD i = false ∧ f[i] = 0#16))

/-- CONNECT while Connected (R206), in the step that takes it: no request, and no register but LAST_STATUS. -/
def Obligations.ConnectWhileConnectedChangesOnlyItsStatus : Prop :=
  ∀ (s : State) (p : PortIn) (rest : List PortIn) (w : HostWord) (baud : BitVec 32), s.offered p rest w →
      decodeHostWord w = .ok (.connect baud) → s.conn = true →
    step s = .next { s.after p rest with lastStatus := .alreadyConnected,
                                         trace := s.trace ++ [.cmd w, .done .alreadyConnected] }

/-- A bus command while Disconnected (R203, R144): as a meaning, and in the step that takes it. That the step leaves the
command latch as it was is the model's choice (log 6: R209's "change LAST_STATUS only", against R35). -/
def Obligations.BusCommandsNeedTheHandle : Prop :=
  ∀ (i : Instr) (s : State), (∃ id, i = .readPos id) ∨ i = .readAll ∨ (∃ id opnd, i = .writePos id opnd) →
      s.conn = false →
    exec i s = .next { s with lastStatus := .notConnected, phase := .idle,
                              trace := s.trace ++ [.done .notConnected] } ∧
    ∀ (p : PortIn) (rest : List PortIn) (w : HostWord), s.offered p rest w → decodeHostWord w = .ok i → step s =
      .next { s.after p rest with lastStatus := .notConnected,
                                  trace := s.trace ++ [.cmd w, .done .notConnected] }

/-- Completion (R201): it writes LAST_STATUS and the phase, records Done, and leaves the block ready; `raise` is it. -/
def Obligations.CompletionEndsTheCommand : Prop :=
  ∀ (st : Status) (s : State),
    complete st s = { s with lastStatus := st, phase := .idle, trace := s.trace ++ [.done st] } ∧
    raise st s = complete st s ∧ (complete st s).busy = false ∧ (complete st s).cmdReady = true

/-! ### The wire rows -/

/-- REQ_READ_POS, REQ_WRITE_POS and REQ_WRITE_TORQUE complete by putting their packet on the transport port (log 7;
packets R113 to R115). -/
def Obligations.RequestRowsPutTheirPacketOnThePort : Prop :=
  (∀ (id : Byte) (s : State), exec (.reqReadPos id) s =
    .next { s with txbuf := encReadPosition id, phase := .rWrite, req := some (.write (encReadPosition id)),
                   trace := s.trace ++ [.request (.write (encReadPosition id))] }) ∧
  (∀ (id : Byte) (pos : BitVec 16) (s : State), exec (.reqWritePos id pos) s =
    .next { s with txbuf := encWritePosition id pos.toNat, phase := .wWrite,
                   req := some (.write (encWritePosition id pos.toNat)),
                   trace := s.trace ++ [.request (.write (encWritePosition id pos.toNat))] }) ∧
  (∀ (id : Byte) (en : Bool) (s : State), exec (.reqWriteTorque id en) s =
    .next { s with txbuf := encWriteTorqueEnable id en, phase := .dWrite,
                   req := some (.write (encWriteTorqueEnable id en)),
                   trace := s.trace ++ [.request (.write (encWriteTorqueEnable id en))] })

/-- RESP_POS completes: it ends the read of a READPOS with the joined bytes 5 and 6, and that of a READALL in the gap
(R116, R171; log 7), whose 50 ticks are the default (log 3), and leaves rxbuf empty (R40; log 21). -/
def Obligations.ResponseRowEndsTheRead : Prop :=
  (∀ (bs : List Byte) (s : State), 8 ≤ bs.length → s.cmdOp = opReadPos → exec (.respPos bs) s =
    .next { s with rxbuf := [], rdHeld := false, resultPos := 1#1 ++ (bs.getD 6 0#8 ++ bs.getD 5 0#8),
                   lastStatus := .ok, phase := .idle, trace := s.trace ++ [.relRd, .done .ok] }) ∧
  (∀ (bs : List Byte) (s : State), 8 ≤ bs.length → s.cmdOp = opReadAll → exec (.respPos bs) s =
    .next { s with rxbuf := [], rdHeld := false, sweepValid := setMotorBit s.sweepValid s.idx true,
                   sweepPos := setMotorPos s.sweepPos s.idx (bs.getD 6 0#8 ++ bs.getD 5 0#8),
                   timer := 50#16, phase := .sGap, trace := s.trace ++ [.relRd] })

/-- Every instruction completes in every state: no meaning faults or refuses (R221). -/
def Obligations.EveryInstructionCompletes : Prop :=
  ∀ (i : Instr) (s : State), ∃ t, exec i s = .next t

/-! ### The codec -/

/-- The checksum (R110, R111): the complement on 8 bits of the byte sum, which is 0xFF less the sum mod 256. -/
def Obligations.ChecksumIsComplementOfByteSum : Prop :=
  ∀ body : List Byte, (checksum body).toNat = 255 - (body.map BitVec.toNat).sum % 256

/-- Checksum self-consistency of every packet the codec builds (R118). -/
def Obligations.RequestsAreSelfConsistent : Prop :=
  ∀ p : List Byte, (∃ id, p = encReadPosition id) ∨ (∃ id q, p = encWritePosition id q) ∨
      (∃ id en, p = encWriteTorqueEnable id en) →
    p.getLast? = some (checksum ((p.drop 2).take (p.length - 3))) ∧ p.take 2 = [0xFF#8, 0xFF#8] ∧
      (p.getD 3 0#8).toNat = p.length - 4

/-- The bytes of the three requests (R84 to R86, R113 to R115), the checksum as R111 puts it. -/
def Obligations.RequestBytesAreTheShapes : Prop :=
  (∀ id : Byte, encReadPosition id =
    [0xFF#8, 0xFF#8, id, 0x04#8, 0x02#8, 0x38#8, 0x02#8, 0xFF#8 - (id + 0x40#8)]) ∧
  (∀ (id : Byte) (p : Int), encWritePosition id p =
    [0xFF#8, 0xFF#8, id, 0x05#8, 0x03#8, 0x2A#8, (clamp p).extractLsb' 0 8, 0#4 ++ (clamp p).extractLsb' 8 4,
     0xFF#8 - (id + 0x32#8 + (clamp p).extractLsb' 0 8 + (0#4 ++ (clamp p).extractLsb' 8 4))]) ∧
  (∀ (id : Byte) (en : Bool), encWriteTorqueEnable id en =
    [0xFF#8, 0xFF#8, id, 0x04#8, 0x03#8, 0x28#8, if en then 0x01#8 else 0x00#8,
     0xFF#8 - (id + 0x2F#8 + if en then 0x01#8 else 0x00#8)])

/-- The clamp (R112), on every integer, and its idempotence. -/
def Obligations.ClampLimitsEveryPosition : Prop :=
  ∀ p : Int, (p < 0 → clamp p = 0#12) ∧ (4095 < p → clamp p = 4095#12) ∧
    (0 ≤ p → p ≤ 4095 → ((clamp p).toNat : Int) = p) ∧ clamp ((clamp p).toNat : Int) = clamp p

/-- The parser (R116): no data below 8 bytes or without a response; else the raw 16 bits of bytes 6 and 5. -/
def Obligations.ParserReadsBytesFiveAndSix : Prop :=
  decodePositionResponse none = none ∧
  (∀ r : List Byte, r.length < 8 → decodePositionResponse (some r) = none) ∧
  (∀ r : List Byte, 8 ≤ r.length →
    ∃ v, decodePositionResponse (some r) = some v ∧
      v.toNat = (r.getD 6 0#8).toNat * 256 + (r.getD 5 0#8).toNat)

/-- The position round trip (R119), for every identity and every position, and any bytes L, E and C; and that decoding
the write packet itself does not give the position. -/
def Obligations.PositionRoundTrip : Prop :=
  ∀ (id L E C : Byte) (p : BitVec 16), p.toNat ≤ 4095 →
    decodePositionResponse (some [0xFF#8, 0xFF#8, id, L, E, p.extractLsb' 0 8, p.extractLsb' 8 8, C]) = some p ∧
    decodePositionResponse (some (encWritePosition id p.toNat)) = some (p.extractLsb' 0 8 ++ 0x2A#8) ∧
    decodePositionResponse (some (encWritePosition id p.toNat)) ≠ some p

/-! ### Encoding -/

/-- Decoding the encoding of a well-formed instruction gives it back, for all ten rows. -/
def Obligations.DecodeInvertsEncode : Prop :=
  ∀ i : Instr, i.wf = true → decode (encode i) = .ok i

/-- A byte list decodes as a request only if it is the packet of that request: no bit of a packet is ignored. -/
def Obligations.RequestDecodesOnlyFromItsPacket : Prop :=
  ∀ (bs : List Byte) (i : Instr), decodeRequest bs = .ok i → i.wf = true ∧ encode i = .request bs

/-- Which host words are illegal (R93). -/
def Obligations.IllegalHostWords : Prop :=
  ∀ w : HostWord, (∃ e, decodeHostWord w = .rejected e) ↔
    (6 ≤ (w.toNat % 16) ∨ (w.toNat / 16) % 16 ≠ 0 ∨ (w.toNat / 65536) % 65536 ≠ 0)

/-- The command codes (R90) and their fields (R89); the fields a command does not use are ignored whatever they hold. -/
def Obligations.HostWordsDecodeByTheirFields : Prop :=
  ∀ (id : Byte) (opnd : BitVec 32),
    decodeHostWord (opnd ++ 0#16 ++ id ++ 0x00#8) = .ok (.connect opnd) ∧
    decodeHostWord (opnd ++ 0#16 ++ id ++ 0x01#8) = .ok .disconnect ∧
    decodeHostWord (opnd ++ 0#16 ++ id ++ 0x02#8) = .ok .isConn ∧
    decodeHostWord (opnd ++ 0#16 ++ id ++ 0x03#8) = .ok (.readPos id) ∧
    decodeHostWord (opnd ++ 0#16 ++ id ++ 0x04#8) = .ok .readAll ∧
    decodeHostWord (opnd ++ 0#16 ++ id ++ 0x05#8) = .ok (.writePos id opnd)

/-- Words of the spec's own tables (95_test_vectors.md 2.2 to 2.6) decode to what they stand for. -/
def Obligations.KnownCodesDecode : Prop :=
  decodeHostWord 0x000F424000000000#64 = .ok (.connect 1000000#32) ∧
  decodeHostWord 0xFFFFFFF600000105#64 = .ok (.writePos 1#8 (BitVec.ofInt 32 (-10))) ∧
  decodeHostWord 0x0000000000000013#64 = .rejected .rsv0Nonzero ∧
  decodeRequest [0xFF#8, 0xFF#8, 0x01#8, 0x04#8, 0x02#8, 0x38#8, 0x02#8, 0xBE#8] = .ok (.reqReadPos 1#8) ∧
  decodeRequest [0xFF#8, 0xFF#8, 0x01#8, 0x05#8, 0x03#8, 0x2A#8, 0x00#8, 0x08#8, 0xC4#8] =
    .ok (.reqWritePos 1#8 2048#16) ∧
  decodeRequest [0xFF#8, 0xFF#8, 0x04#8, 0x04#8, 0x03#8, 0x28#8, 0x00#8, 0xCC#8] = .ok (.reqWriteTorque 4#8 false) ∧
  decodeResponse [0xFF#8, 0xFF#8, 0x03#8, 0x04#8, 0x00#8, 0xD2#8, 0x04#8] = .rejected .shortChunk

/-- The assembler (R95), line by line: which operands a line may have, the word it assembles to, all bits of it, and the
command that word decodes to. -/
def Obligations.AssembledLinesDecode : Prop :=
  (∀ baud : Int, (baud < 0 ∨ 4294967296 ≤ baud → assembleLine (.connect baud) = none) ∧
    (0 ≤ baud → baud < 4294967296 → ∃ (w : HostWord) (b : BitVec 32), assembleLine (.connect baud) = some w ∧
      (w.toNat : Int) = baud * 4294967296 ∧ decodeHostWord w = .ok (.connect b) ∧ (b.toNat : Int) = baud)) ∧
  (assembleLine .disconnect = some 1#64 ∧ decodeHostWord 1#64 = .ok .disconnect) ∧
  (assembleLine .isConn = some 2#64 ∧ decodeHostWord 2#64 = .ok .isConn) ∧
  (∀ id : Int, (id < 0 ∨ 256 ≤ id → assembleLine (.readPos id) = none) ∧
    (0 ≤ id → id < 256 → ∃ (w : HostWord) (b : Byte), assembleLine (.readPos id) = some w ∧
      (w.toNat : Int) = id * 256 + 3 ∧ decodeHostWord w = .ok (.readPos b) ∧ (b.toNat : Int) = id)) ∧
  (assembleLine .readAll = some 4#64 ∧ decodeHostWord 4#64 = .ok .readAll) ∧
  (∀ id pos : Int,
    (id < 0 ∨ 256 ≤ id ∨ pos < -2147483648 ∨ 2147483648 ≤ pos → assembleLine (.writePos id pos) = none) ∧
    (0 ≤ id → id < 256 → -2147483648 ≤ pos → pos < 2147483648 →
      ∃ (w : HostWord) (b : Byte) (o : BitVec 32), assembleLine (.writePos id pos) = some w ∧
        w = o ++ 0#16 ++ b ++ 0x05#8 ∧ decodeHostWord w = .ok (.writePos b o) ∧
        (b.toNat : Int) = id ∧ o.toInt = pos))

/-! ### Registers and ports -/

/-- The layout of STATUS (R21, R24, R25, R28), with the status codes of R202's table in bits 3 to 0. -/
def Obligations.StatusLayout : Prop :=
  ∀ s : State,
    (s.lastStatus = .ok → s.status.extractLsb' 0 4 = 0#4) ∧
    (s.lastStatus = .notConnected → s.status.extractLsb' 0 4 = 1#4) ∧
    (s.lastStatus = .connectFailed → s.status.extractLsb' 0 4 = 2#4) ∧
    (s.lastStatus = .closeFailed → s.status.extractLsb' 0 4 = 3#4) ∧
    (s.lastStatus = .alreadyConnected → s.status.extractLsb' 0 4 = 4#4) ∧
    (s.lastStatus = .illegalCommand → s.status.extractLsb' 0 4 = 5#4) ∧
    s.status.getLsbD 4 = s.conn ∧ s.status.getLsbD 5 = (s.conn && s.rxUsable) ∧
    s.status.getLsbD 6 = decide (s.phase ≠ .idle) ∧ s.status.getLsbD 7 = s.wrHeld ∧
    s.status.getLsbD 8 = s.rdHeld ∧ s.status.extractLsb' 9 7 = 0#7

/-- The phase's encoding (R34). -/
def Obligations.PhaseCodesAreTheTable : Prop :=
  [Phase.idle, .cOpen, .rWrite, .rWait, .sGap, .wWrite, .dWrite, .dGap, .dClose].map Phase.code =
    [0#4, 1#4, 2#4, 3#4, 4#4, 5#4, 6#4, 7#4, 8#4]

/-- The register map (R21): what the register-read port gives for every number. -/
def Obligations.RegisterReadMap : Prop :=
  ∀ s : State, (s.readReg 0#8).toNat = s.status.toNat ∧ (s.readReg 1#8).toNat = s.resultBool.toNat ∧
    (s.readReg 2#8).toNat = s.resultPos.toNat ∧ (s.readReg 3#8).toNat = s.sweepValid.toNat ∧
    (∀ i : Fin 6, (s.readReg (BitVec.ofNat 8 (4 + i))).toNat = s.sweepPos[i].toNat) ∧
    (s.readReg 10#8).toNat = s.disableFail.toNat ∧ (∀ n : BitVec 8, 11#8 ≤ n → s.readReg n = 0#32)

/-- Every register after reset (R230, R231), on the reset pin: from any state, whatever else the pins present. That the
trace is kept is the model's choice (log 9), and that an outcome, an expiry or a command presented with the reset is
neither taken nor recorded is log 20. -/
def Obligations.ResetPinResetsEveryRegister : Prop :=
  ∀ (s : State) (p : PortIn) (rest : List PortIn), s.inputs = p :: rest → p.reset = true →
    ∃ t, step s = .next t ∧ t.phase = .idle ∧ t.status = 0#16 ∧ t.lastStatus = .ok ∧ t.conn = false ∧
      t.wrHeld = false ∧ t.rdHeld = false ∧ t.resultBool = false ∧ t.resultPos = 0#17 ∧ t.sweepValid = 0#6 ∧
      (∀ i : Fin 6, t.sweepPos[i] = 0#16) ∧ t.disableFail = 0#6 ∧ t.cmdOp = 0#4 ∧ t.cmdId = 0#8 ∧
      t.cmdOpnd = 0#32 ∧ t.posc = 0#12 ∧ t.idx = 0#3 ∧ t.timer = 0#16 ∧ t.txbuf = [] ∧ t.rxbuf = [] ∧
      t.trace = s.trace

/-- The state after reset (R230, R232): every register, and the block ready for a command. -/
def Obligations.ResetState : Prop :=
  let s := State.reset
  s.phase = .idle ∧ s.status = 0#16 ∧ s.resultBool = false ∧ s.resultPos = 0#17 ∧ s.sweepValid = 0#6 ∧
    (∀ i : Fin 6, s.sweepPos[i] = 0#16) ∧ s.disableFail = 0#6 ∧ s.cmdOp = 0#4 ∧ s.cmdId = 0#8 ∧ s.cmdOpnd = 0#32 ∧
    s.posc = 0#12 ∧ s.idx = 0#3 ∧ s.timer = 0#16 ∧ s.txbuf = [] ∧ s.rxbuf = [] ∧ s.cmdReady = true

/-- A register read has no effect (R33): whatever register the pins select, the step is the same. -/
def Obligations.RegisterReadHasNoEffect : Prop :=
  ∀ (s : State) (p : PortIn) (rest : List PortIn) (n : BitVec 8) (t : State),
      step { s with inputs := p :: rest } = .next t →
    step { s with inputs := { p with regSel := n } :: rest } = .next { t with regSel := n }

/-! ### The step -/

/-- A step runs the decoded command: taken from the host port, recorded and latched, then its meaning (R35, R42, R89).
A command that its check rejects (CONNECT while Connected, a bus command while Disconnected) is recorded and not latched
(R206, R209; log 6). -/
def Obligations.StepRunsTheOfferedCommand : Prop :=
  ∀ (s : State) (p : PortIn) (rest : List PortIn) (w : HostWord) (i : Instr), s.offered p rest w →
      decodeHostWord w = .ok i →
    let rejected := (s.conn = true ∧ ∃ baud, i = .connect baud) ∨
      (s.conn = false ∧ ((∃ id, i = .readPos id) ∨ i = .readAll ∨ ∃ id opnd, i = .writePos id opnd))
    (rejected → step s = exec i { s.after p rest with trace := s.trace ++ [.cmd w] }) ∧
    (¬ rejected → step s = exec i { s.after p rest with cmdOp := w.extractLsb' 0 4, cmdId := w.extractLsb' 8 8,
                                                        cmdOpnd := w.extractLsb' 32 32,
                                                        trace := s.trace ++ [.cmd w] })

/-- A step runs the response row: a chunk of 8 bytes or more taken in R_WAIT (R171). -/
def Obligations.StepRunsTheResponse : Prop :=
  ∀ (s : State) (p : PortIn) (rest : List PortIn) (n : Nat) (bs : List Byte), s.phase = .rWait →
      s.req = some (.read n) → 8 ≤ bs.length → bs.length ≤ n → s.inTime p →
    s.answered p rest (.readData bs) →
    step s = exec (.respPos bs) { s.after p rest with req := none, timer := (countTick p.tick s).timer,
                                                      trace := s.trace ++ [.answer (.readData bs)] }

/-- The request rows run inside the steps that issue them (R170, R171, R175, R176, R142; log 7). -/
def Obligations.StepsRunTheRequestRows : Prop :=
  (∀ (id : Byte) (s : State), s.conn = true → exec (.readPos id) s =
    exec (.reqReadPos id) { s with rdHeld := true, trace := s.trace ++ [.acqRd] }) ∧
  (∀ (s : State), s.conn = true → exec .readAll s =
    exec (.reqReadPos 1#8) { s with idx := 1#3, rdHeld := true, trace := s.trace ++ [.acqRd] }) ∧
  (∀ (id : Byte) (opnd : BitVec 32) (s : State), s.conn = true → exec (.writePos id opnd) s =
    exec (.reqWritePos id ((clamp opnd.toInt).setWidth 16)) { s with posc := clamp opnd.toInt }) ∧
  (∀ (s : State), s.conn = true → exec .disconnect s =
    exec (.reqWriteTorque 1#8 false) { s with disableFail := 0#6, idx := 1#3 }) ∧
  (∀ (s : State) (p : PortIn) (rest : List PortIn), s.phase = .sGap → s.idx < 6#3 → s.expiring p rest → step s =
    exec (.reqReadPos ((s.idx + 1#3).setWidth 8))
      { s.after p rest with idx := s.idx + 1#3, timer := 0#16, rdHeld := true,
                            trace := s.trace ++ [.expire, .acqRd] }) ∧
  (∀ (s : State) (p : PortIn) (rest : List PortIn), s.phase = .dGap → s.idx < 6#3 → s.expiring p rest → step s =
    exec (.reqWriteTorque ((s.idx + 1#3).setWidth 8) false)
      { s.after p rest with idx := s.idx + 1#3, timer := 0#16, trace := s.trace ++ [.expire] })

/-- An illegal word (R207) completes in the step that takes it, whatever the lifecycle state: LAST_STATUS and the two
trace events, no other register, the command latch among those it does not write. -/
def Obligations.IllegalWordCompletesAtOnce : Prop :=
  ∀ (s : State) (p : PortIn) (rest : List PortIn) (w : HostWord), s.offered p rest w →
    6 ≤ (w.extractLsb' 0 4).toNat ∨ w.extractLsb' 4 4 ≠ 0#4 ∨ w.extractLsb' 16 16 ≠ 0#16 →
    step s = .next { s.after p rest with lastStatus := .illegalCommand,
                                         trace := s.trace ++ [.cmd w, .done .illegalCommand] }

/-- While BUSY the port takes no command (R25, R42): what the host offers makes no difference. -/
def Obligations.BusyBlockTakesNoCommand : Prop :=
  ∀ (s : State) (p : PortIn) (rest : List PortIn) (w : Option HostWord), s.phase ≠ .idle →
    step { s with inputs := { p with cmd := w } :: rest } = step { s with inputs := p :: rest }

/-- Every step gives a next state exactly where the transport keeps to its duties (R219, R220, R221). -/
def Obligations.StepIsNextWhereTheTransportIsAllowed : Prop :=
  ∀ (s : State) (p : PortIn) (rest : List PortIn), s.Inv → s.inputs = p :: rest →
    ((∃ t, step s = .next t) ↔ (p.reset = true ∨ ∀ (a : Answer), p.answer = some a → s.allows a = true))

/-- No answer, no end (R219, R240): in a phase without a deadline, whatever the host and the timer do, any number of
steps without an outcome leaves the block busy, in its phase, having issued nothing. -/
def Obligations.UnansweredRequestKeepsTheBlockBusy : Prop :=
  ∀ (moves rest : List PortIn) (s : State), s.phase.unbounded = true → (∀ p ∈ moves, p.silent = true) →
    s.inputs = moves ++ rest →
    ∃ t, Host.Core.run Sys2Proof.core moves.length s = .next t ∧ t.phase = s.phase ∧ t.busy = true ∧
      t.trace = s.trace ∧ t.req = s.req ∧ t.inputs = rest

/-- The time base (R217): in a timed phase, with no outcome, Expire comes on the N-th tick after the load, not before,
however many steps without a tick lie between. -/
def Obligations.ExpiryComesOnTheNthTick : Prop :=
  ∀ (moves rest : List PortIn) (p : PortIn) (s : State), s.phase.timed = true →
    (∀ q ∈ moves, q.silent = true) → p.silent = true → p.tick = true →
    (moves.filter (·.tick)).length + 1 = s.timer.toNat → s.inputs = moves ++ p :: rest →
    ∃ t u ev, Host.Core.run Sys2Proof.core moves.length s = .next t ∧ t.phase = s.phase ∧ t.trace = s.trace ∧
      step t = .next u ∧ u.trace = s.trace ++ .expire :: ev

/-- A read outcome and the deadline in the same step: either may win (R172, D10), as the environment chooses. Where the
deadline wins, the read ends with no data: RESULT_POS 0 and status OK, or the sweep entry not valid and the gap. That
the pin record carries the choice, and what the trace has of the loser, is the model's choice (log 4), and the gap's 50
ticks are the default (log 3). -/
def Obligations.TieGoesEitherWay : Prop :=
  ∀ (s : State) (p : PortIn) (rest : List PortIn) (a : Answer), s.phase = .rWait →
      s.req = some (.read Config.readMaxLen) → s.timer = 1#16 → s.allows a = true →
    s.answered p rest a → p.tick = true →
    (p.answerWins = true → ∃ t ev, step s = .next t ∧ t.trace = s.trace ++ .answer a :: ev ∧
      .cancel ∉ ev ∧ .expire ∉ ev) ∧
    (p.answerWins = false →
      (∃ t ev, step s = .next t ∧ t.trace = s.trace ++ .expire :: .cancel :: ev ∧ .answer a ∉ ev) ∧
      (s.cmdOp = opReadPos → step s = .next { s.after p rest with
        rdHeld := false, resultPos := 0#17, req := none, timer := 0#16, lastStatus := .ok, phase := .idle,
        trace := s.trace ++ [.expire, .cancel, .relRd, .done .ok] }) ∧
      (s.cmdOp = opReadAll → 1#3 ≤ s.idx → s.idx ≤ 6#3 →
        ∃ (v : BitVec 6) (f : Vector (BitVec 16) 6), step s =
          .next { s.after p rest with rdHeld := false, req := none, sweepValid := v, sweepPos := f,
                                      timer := 50#16, phase := .sGap,
                                      trace := s.trace ++ [.expire, .cancel, .relRd] } ∧
          ∀ i : Fin 6, (i.val + 1 ≠ s.idx.toNat → v.getLsbD i = s.sweepValid.getLsbD i ∧ f[i] = s.sweepPos[i]) ∧
            (i.val + 1 = s.idx.toNat → v.getLsbD i = false ∧ f[i] = 0#16)))

/-! ### Whole-machine rules -/

/-- The invariant holds after reset. -/
def Obligations.InvariantAtReset : Prop := State.Inv State.reset

/-- Every step keeps the invariant, from every state that meets it. Its clause on rxbuf is R40 as log 21 reads it. -/
def Obligations.StepKeepsInvariant : Prop :=
  ∀ (s t : State), s.Inv → step s = .next t → t.Inv

/-- What changes CONN (R23, R140): only OpenOk in C_OPEN, an outcome of the close in D_CLOSE, and reset; each does. -/
def Obligations.OnlyOpenAndCloseChangeConn : Prop :=
  ∀ (s t : State) (p : PortIn) (rest : List PortIn), s.inputs = p :: rest → p.reset = false → step s = .next t →
    (s.phase = .cOpen ∧ p.answer = some .openOk ∧ t.conn = true) ∨
    (s.phase = .dClose ∧ (p.answer = some .closeOk ∨ p.answer = some .closeErr) ∧ t.conn = false) ∨
    (t.conn = s.conn ∧ ¬ (s.phase = .cOpen ∧ p.answer = some .openOk) ∧
      ¬ (s.phase = .dClose ∧ (p.answer = some .closeOk ∨ p.answer = some .closeErr)))

/-- What changes the two holds (R26, R27): WR_HELD rises on OpenOk and falls at the end of the last disable gap; RD_HELD
rises where a read starts and falls only from the phases of a read transaction. -/
def Obligations.HoldsChangeOnlyByTheirRules : Prop :=
  ∀ (s t : State) (p : PortIn) (rest : List PortIn), s.inputs = p :: rest → p.reset = false → step s = .next t →
    (t.wrHeld ≠ s.wrHeld → (s.phase = .cOpen ∧ p.answer = some .openOk ∧ t.wrHeld = true) ∨
      (s.phase = .dGap ∧ t.phase = .dClose ∧ t.wrHeld = false)) ∧
    (t.rdHeld ≠ s.rdHeld → (t.rdHeld = true ∧ t.phase = .rWrite ∧ (s.phase = .idle ∨ s.phase = .sGap)) ∨
      (t.rdHeld = false ∧ (s.phase = .rWrite ∨ s.phase = .rWait)))

/-- Only completion writes LAST_STATUS (R22, R201): a step records at most one Done, at its end, and LAST_STATUS is then
its code and the block idle; a step that records none leaves LAST_STATUS as it was. -/
def Obligations.OnlyCompletionWritesLastStatus : Prop :=
  ∀ (s t : State) (p : PortIn) (rest : List PortIn), s.inputs = p :: rest → p.reset = false → step s = .next t →
    ∃ ev, t.trace = s.trace ++ ev ∧
      (((∀ st, Event.done st ∉ ev) ∧ t.lastStatus = s.lastStatus) ∨
        (t.phase = .idle ∧ ∃ ev', ev = ev' ++ [.done t.lastStatus] ∧ ∀ st, Event.done st ∉ ev'))

/-- Who writes the result registers (R29 to R32, D20). -/
def Obligations.ResultRegistersHaveTheirWriters : Prop :=
  ∀ (s t : State) (p : PortIn) (rest : List PortIn), s.inputs = p :: rest → p.reset = false → step s = .next t →
    (t.resultBool ≠ s.resultBool → t.phase = .idle ∧
      (s.phase = .wWrite ∨ (s.phase = .idle ∧ ∃ w, p.cmd = some w ∧ decodeHostWord w = .ok .isConn))) ∧
    (t.resultPos ≠ s.resultPos → t.phase = .idle ∧ s.cmdOp = opReadPos ∧ (s.phase = .rWrite ∨ s.phase = .rWait)) ∧
    (t.sweepValid ≠ s.sweepValid ∨ t.sweepPos ≠ s.sweepPos →
      t.phase = .sGap ∧ s.cmdOp = opReadAll ∧ (s.phase = .rWrite ∨ s.phase = .rWait)) ∧
    (∀ i : Fin 6, i.val + 1 ≠ s.idx.toNat →
      t.sweepValid.getLsbD i = s.sweepValid.getLsbD i ∧ t.sweepPos[i] = s.sweepPos[i]) ∧
    (t.disableFail ≠ s.disableFail → (s.phase = .dWrite ∧ p.answer = some .writeErr) ∨
      (s.phase = .idle ∧ t.disableFail = 0#6 ∧ ∃ w, p.cmd = some w ∧ decodeHostWord w = .ok .disconnect))

/-- The trace is only appended to and never read (R45): a step from another trace is the same step with the same new
events. -/
def Obligations.TraceIsAppendedToAndNeverRead : Prop :=
  ∀ (s t : State) (tr : List Event), step s = .next t →
    ∃ ev, t.trace = s.trace ++ ev ∧ step { s with trace := tr } = .next { t with trace := tr ++ ev }

/-- RX_USABLE is read by ISCONN alone (R24, R142, R143, R144, D11): on any other step its level makes no difference. -/
def Obligations.OnlyIsConnReadsRxUsable : Prop :=
  ∀ (s : State) (p : PortIn) (rest : List PortIn) (b : Bool) (t : State), (s.phase = .idle →
      ∀ (w : HostWord), p.cmd = some w → decodeHostWord w ≠ .ok .isConn) →
    step { s with inputs := p :: rest } = .next t →
    step { s with inputs := { p with rxUsable := b } :: rest } = .next { t with rxUsable := b }

/-- Every packet a step writes is a request the codec builds, and of torque requests only the disable of motors 1 to 6
(R94, R115). -/
def Obligations.EveryWriteIsARequestOfTheCodec : Prop :=
  ∀ (s t : State), s.Inv → step s = .next t → ∃ ev, t.trace = s.trace ++ ev ∧
    ∀ p : List Byte, .request (.write p) ∈ ev → (∃ id, p = encReadPosition id) ∨ (∃ id q, p = encWritePosition id q) ∨
      (∃ i : Fin 6, p = encWriteTorqueEnable (BitVec.ofNat 8 (i + 1)) false)

/-- Only bytes 5 and 6 of a response matter (R87, R120): two chunks of 8 bytes or more that agree in them give the same
next state, but for the trace. That rxbuf too is the same, empty after both, is R40 as log 21 reads it (DEDUCED). -/
def Obligations.OtherResponseBytesDoNotMatter : Prop :=
  ∀ (s : State) (p : PortIn) (rest : List PortIn) (n : Nat) (c d : List Byte) (t : State), s.phase = .rWait →
      s.req = some (.read n) → 8 ≤ c.length → 8 ≤ d.length → c.length ≤ n → d.length ≤ n →
      c.getD 5 0#8 = d.getD 5 0#8 → c.getD 6 0#8 = d.getD 6 0#8 →
    step { s with inputs := { p with answer := some (.readData c) } :: rest } = .next t →
    ∃ tr, step { s with inputs := { p with answer := some (.readData d) } :: rest } = .next { t with trace := tr }

/-- A read's outcome does not reveal why there is no data (R174): two causes give the same state, but for rxbuf, the
timer and the trace, with status OK and RESULT_POS 0 for a READPOS. -/
def Obligations.NoDataDoesNotRevealItsCause : Prop :=
  ∀ (s : State) (p q : PortIn) (rest : List PortIn) (n : Nat), s.phase = .rWait → s.req = some (.read n) →
      s.cmdOp = opReadPos → p.noData s → q.noData s → p.rxUsable = q.rxUsable → p.regSel = q.regSel →
    (∀ (bs : List Byte), p.answer = some (.readData bs) ∨ q.answer = some (.readData bs) → bs.length ≤ n) →
    ∃ t rb tm tr, step { s with inputs := p :: rest } = .next t ∧ t.resultPos = 0#17 ∧ t.lastStatus = .ok ∧
      step { s with inputs := q :: rest } = .next { t with rxbuf := rb, timer := tm, trace := tr }

/-- A read for fewer than 8 bytes gives no data, whatever the transport does (R238): with READ_MAX_LEN below 8, every
read. -/
def Obligations.ShortReadsNeverGiveAPosition : Prop :=
  ∀ (s t : State) (p : PortIn) (rest : List PortIn) (n : Nat), n < 8 →
      s.phase = .rWrite ∨ (s.phase = .rWait ∧ s.req = some (.read n)) → t.phase ≠ s.phase → t.phase ≠ .rWait →
      s.inputs = p :: rest → p.reset = false → step s = .next t →
    (s.cmdOp = opReadPos → t.resultPos = 0#17) ∧
    (s.cmdOp = opReadAll → ∀ i : Fin 6, i.val + 1 = s.idx.toNat →
      t.sweepValid.getLsbD i = false ∧ t.sweepPos[i] = 0#16)

/-! ### Whole commands -/

/-- A connected DISCONNECT, whichever of its writes fail and however its close ends (R142, R178): six torque-disable
writes to motors 1 to 6 in order, DISABLE_FAIL their outcomes, and Disconnected at the end. The gaps have their default
of 20 ticks (R7, R38; log 3). -/
def Obligations.DisconnectDisablesAllSixMotors : Prop :=
  ∀ (s : State) (fails : Vector Bool 6) (closeOk : Bool) (rest : List PortIn),
    s.phase = .idle → s.conn = true →
    let script := ({ cmd := some 1#64 } : PortIn) :: (fails.toList.flatMap disableScript ++
      [answerPins (if closeOk then .closeOk else .closeErr)])
    s.inputs = script ++ rest →
    ∃ t ev, Host.Core.run Sys2Proof.core script.length s = .next t ∧ t.inputs = rest ∧ t.trace = s.trace ++ ev ∧
      writtenIn ev = [1#8, 2#8, 3#8, 4#8, 5#8, 6#8].map (encWriteTorqueEnable · false) ∧
      (∀ i : Fin 6, t.disableFail.getLsbD i = fails[i]) ∧ t.conn = false ∧ t.wrHeld = false ∧ t.phase = .idle ∧
      t.lastStatus = (if closeOk then .ok else .closeFailed) ∧ t.resultBool = s.resultBool ∧
      t.resultPos = s.resultPos ∧ t.sweepValid = s.sweepValid ∧ t.sweepPos = s.sweepPos ∧ t.rdHeld = s.rdHeld

/-- A connected READALL, however each motor's read goes (R171, R176, R177, R178): six requests to motors 1 to 6 in
order, all six entries written by it, status OK, and still Connected. The gaps have their default of 50 ticks (R7, R38;
log 3). -/
def Obligations.ReadAllWritesAllSixEntries : Prop :=
  ∀ (s : State) (fates : Vector ReadFate 6) (rest : List PortIn),
    s.phase = .idle → s.conn = true → (∀ i : Fin 6, fates[i].possible) →
    let script := ({ cmd := some 4#64 } : PortIn) :: fates.toList.flatMap readScript
    s.inputs = script ++ rest →
    ∃ t ev, Host.Core.run Sys2Proof.core script.length s = .next t ∧ t.inputs = rest ∧ t.trace = s.trace ++ ev ∧
      writtenIn ev = [1#8, 2#8, 3#8, 4#8, 5#8, 6#8].map encReadPosition ∧
      (∀ i : Fin 6, t.sweepValid.getLsbD i = fates[i].result.isSome ∧ t.sweepPos[i] = fates[i].result.getD 0#16) ∧
      t.lastStatus = .ok ∧ t.phase = .idle ∧ t.rdHeld = false ∧ t.conn = true ∧ t.wrHeld = s.wrHeld ∧
      t.resultBool = s.resultBool ∧ t.resultPos = s.resultPos ∧ t.disableFail = s.disableFail
end

