-- ==== Sys2Proof/Laws/Codec.lean ====
section
/-! SUPPORT. The small laws of the codec and of the host word's fields. -/

namespace Sys2Proof.Machine

/-! ### Packets -/

@[simp] theorem frame_length (body : List Byte) : (frame body).length = body.length + 3 := by
  simp [frame]

@[simp] theorem encReadPosition_length (id : Byte) : (encReadPosition id).length = 8 := rfl
@[simp] theorem encWritePosition_length (id : Byte) (p : Int) : (encWritePosition id p).length = 9 := rfl
@[simp] theorem encWriteTorqueEnable_length (id : Byte) (en : Bool) : (encWriteTorqueEnable id en).length = 8 := rfl

/-- The last byte of a frame is the checksum of its body (R83). -/
theorem frame_getLast (body : List Byte) : (frame body).getLast? = some (checksum body) := by
  rw [frame, List.getLast?_append]
  rfl

/-- Bytes 2 to n-2 of a frame are its body. -/
theorem frame_body (body : List Byte) : ((frame body).drop 2).dropLast = body := by
  simp [frame]

/-- A frame is recognised by its body alone. -/
theorem matchRequest_frame (body : List Byte) : matchRequest (frame body) = matchBody body := by
  simp [frame, matchRequest]

/-- A frame decodes as its body is recognised: its checksum always agrees. -/
theorem decodeRequest_frame {body : List Byte} {i : Instr} (h : matchBody body = some i) :
    decodeRequest (frame body) = .ok i := by
  simp only [decodeRequest, matchRequest_frame, h, frame_getLast, frame_body, if_true]

/-! ### Positions -/

theorem clamp_of_neg {p : Int} (h : p < 0) : clamp p = 0#12 := by simp [clamp, h]

theorem clamp_of_gt {p : Int} (h : 4095 < p) : clamp p = 4095#12 := by
  have h0 : ¬ p < 0 := by omega
  have h1 : (Config.posMax : Int) < p := h
  simp only [clamp, h0, h1, if_false, if_true]
  rfl

/-- Inside its range the clamp keeps the position (R112). -/
theorem clamp_toNat {p : Int} (h0 : 0 ≤ p) (h1 : p ≤ 4095) : ((clamp p).toNat : Int) = p := by
  have h0' : ¬ p < 0 := by omega
  have h1' : ¬ (Config.posMax : Int) < p := by simp [Config.posMax]; omega
  simp only [clamp, h0', h1', if_false, BitVec.toNat_ofInt]
  omega

/-- The clamp is idempotent (R112). -/
theorem clamp_idem (p : Int) : clamp ((clamp p).toNat : Int) = clamp p := by
  apply BitVec.eq_of_toNat_eq
  have h : (clamp p).toNat < 4096 := (clamp p).isLt
  have := clamp_toNat (p := ((clamp p).toNat : Int)) (by omega) (by omega)
  omega

/-- A 12-bit position is not changed by the clamp. -/
theorem clamp_ofNat (c : BitVec 12) : clamp (c.toNat : Int) = c := by
  apply BitVec.eq_of_toNat_eq
  have := clamp_toNat (p := (c.toNat : Int)) (by omega) (by omega)
  omega

/-- The codec clamps what is clamped already (R114). -/
theorem encWritePosition_clamp (id : Byte) (p : Int) :
    encWritePosition id ((clamp p).toNat : Int) = encWritePosition id p := by
  simp only [encWritePosition, clamp_idem]

/-- The byte join is the two bytes side by side, high first (R116). -/
theorem joinPos_eq (low high : Byte) : joinPos low high = high ++ low := by
  apply BitVec.eq_of_getLsbD_eq
  intro i hi
  simp only [joinPos, BitVec.getLsbD_or, BitVec.getLsbD_shiftLeft, BitVec.getLsbD_setWidth, BitVec.getLsbD_append]
  by_cases h : i < 8
  · simp [h]; omega
  · have hl : low.getLsbD i = false := BitVec.getLsbD_of_ge _ _ (by omega)
    have h2 : i - 8 < 16 := by omega
    simp [h, hl, h2, hi]

/-- The bytes of a 12-bit position, joined, are the position. -/
theorem posHigh_append_posLow (c : BitVec 12) : posHigh c ++ posLow c = c.setWidth 16 := by
  apply BitVec.eq_of_getLsbD_eq
  intro i hi
  simp only [posHigh, posLow, BitVec.getLsbD_append, BitVec.getLsbD_setWidth, BitVec.getLsbD_extractLsb']
  by_cases h : i < 8
  · simp [h, hi]
  · by_cases h4 : i < 12
    · have : 8 + (i - 8) = i := by omega
      simp [h, hi, this, show i - 8 < 8 by omega, show i - 8 < 4 by omega]
    · have hz : c.getLsbD i = false := BitVec.getLsbD_of_ge _ _ (by omega)
      simp [h, hz]; omega

/-- The high byte has an empty upper nibble (R85). -/
theorem posHigh_le (c : BitVec 12) : posHigh c ≤ 0x0F#8 := by
  have h : (c.extractLsb' 8 4).toNat < 16 := (c.extractLsb' 8 4).isLt
  simp only [BitVec.le_def, posHigh, BitVec.toNat_setWidth]
  simp only [BitVec.toNat_ofNat]
  omega

/-! ### The parser -/

theorem decodePositionResponse_short {r : List Byte} (h : r.length < 8) :
    decodePositionResponse (some r) = none := by
  simp [decodePositionResponse, Config.respMinLen, h]

theorem decodePositionResponse_long {r : List Byte} (h : 8 ≤ r.length) :
    decodePositionResponse (some r) = some (r.getD 6 0#8 ++ r.getD 5 0#8) := by
  simp [decodePositionResponse, Config.respMinLen, joinPos_eq, Nat.not_lt.mpr h]

theorem decodeResponse_long {r : List Byte} (h : 8 ≤ r.length) : decodeResponse r = .ok (.respPos r) := by
  simp [decodeResponse, Config.respMinLen, h]

theorem decodeResponse_short {r : List Byte} (h : r.length < 8) : decodeResponse r = .rejected .shortChunk := by
  simp [decodeResponse, Config.respMinLen, Nat.not_le.mpr h]

/-! ### The host word -/

/-- The fields of an assembled word are the ones it was assembled from (R89). -/
theorem hostWordOf_fields (op : BitVec 4) (id : Byte) (opnd : BitVec 32) :
    hostOp (hostWordOf op id opnd) = op ∧ hostRsv0 (hostWordOf op id opnd) = 0#4 ∧
    hostId (hostWordOf op id opnd) = id ∧ hostRsv1 (hostWordOf op id opnd) = 0#16 ∧
    hostOpnd (hostWordOf op id opnd) = opnd := by
  simp (disch := omega) only [hostOp, hostRsv0, hostId, hostRsv1, hostOpnd, hostWordOf,
    BitVec.extractLsb'_append_eq_right, BitVec.extractLsb'_append_eq_of_le, Nat.reduceSub, BitVec.extractLsb'_eq_self,
    and_self]

/-- What the host port's decoder answers, command by command (R90). -/
theorem decodeHostWord_ok {w : HostWord} {i : Instr} (h : decodeHostWord w = .ok i) :
    (hostOp w = 0x0#4 ∧ i = .connect (hostOpnd w)) ∨ (hostOp w = 0x1#4 ∧ i = .disconnect) ∨
    (hostOp w = 0x2#4 ∧ i = .isConn) ∨ (hostOp w = 0x3#4 ∧ i = .readPos (hostId w)) ∨
    (hostOp w = 0x4#4 ∧ i = .readAll) ∨ (hostOp w = 0x5#4 ∧ i = .writePos (hostId w) (hostOpnd w)) := by
  unfold decodeHostWord at h
  split at h
  · simp at h
  · split at h
    · simp at h
    · generalize hostOp w = op at h ⊢
      revert h
      obtain ⟨⟨n, hn⟩⟩ := op
      interval_cases n <;> simp +contextual [decodeHostOp, eq_comm]

end Sys2Proof.Machine
end

