-- ==== Sys2Proof/Laws/State.lean ====
section
/-! SUPPORT. What every shared update leaves in every field: for each update one theorem whose conjuncts are one
equation per field, all of them simp rules. A later proof cites these and unfolds no update. -/

namespace Sys2Proof.Machine

variable (s : State)

@[simp] theorem record_fields (e : Event) :
    (record e s).lastStatus = s.lastStatus ∧ (record e s).conn = s.conn ∧ (record e s).wrHeld = s.wrHeld ∧
    (record e s).rdHeld = s.rdHeld ∧ (record e s).resultBool = s.resultBool ∧ (record e s).resultPos = s.resultPos ∧
    (record e s).sweepValid = s.sweepValid ∧ (record e s).sweepPos = s.sweepPos ∧
    (record e s).disableFail = s.disableFail ∧ (record e s).phase = s.phase ∧ (record e s).cmdOp = s.cmdOp ∧
    (record e s).cmdId = s.cmdId ∧ (record e s).cmdOpnd = s.cmdOpnd ∧ (record e s).posc = s.posc ∧
    (record e s).idx = s.idx ∧ (record e s).timer = s.timer ∧ (record e s).txbuf = s.txbuf ∧
    (record e s).rxbuf = s.rxbuf ∧ (record e s).req = s.req ∧ (record e s).rxUsable = s.rxUsable ∧
    (record e s).regSel = s.regSel ∧ (record e s).trace = s.trace ++ [e] ∧ (record e s).inputs = s.inputs :=
  ⟨rfl, rfl, rfl, rfl, rfl, rfl, rfl, rfl, rfl, rfl, rfl, rfl, rfl, rfl, rfl, rfl, rfl, rfl, rfl, rfl, rfl, rfl, rfl⟩

@[simp] theorem issue_fields (r : Request) :
    (issue r s).lastStatus = s.lastStatus ∧ (issue r s).conn = s.conn ∧ (issue r s).wrHeld = s.wrHeld ∧
    (issue r s).rdHeld = s.rdHeld ∧ (issue r s).resultBool = s.resultBool ∧ (issue r s).resultPos = s.resultPos ∧
    (issue r s).sweepValid = s.sweepValid ∧ (issue r s).sweepPos = s.sweepPos ∧
    (issue r s).disableFail = s.disableFail ∧ (issue r s).phase = s.phase ∧ (issue r s).cmdOp = s.cmdOp ∧
    (issue r s).cmdId = s.cmdId ∧ (issue r s).cmdOpnd = s.cmdOpnd ∧ (issue r s).posc = s.posc ∧
    (issue r s).idx = s.idx ∧ (issue r s).timer = s.timer ∧ (issue r s).txbuf = s.txbuf ∧
    (issue r s).rxbuf = s.rxbuf ∧ (issue r s).req = some r ∧ (issue r s).rxUsable = s.rxUsable ∧
    (issue r s).regSel = s.regSel ∧ (issue r s).trace = s.trace ++ [.request r] ∧ (issue r s).inputs = s.inputs :=
  ⟨rfl, rfl, rfl, rfl, rfl, rfl, rfl, rfl, rfl, rfl, rfl, rfl, rfl, rfl, rfl, rfl, rfl, rfl, rfl, rfl, rfl, rfl, rfl⟩

@[simp] theorem tCancel_fields :
    (tCancel s).lastStatus = s.lastStatus ∧ (tCancel s).conn = s.conn ∧ (tCancel s).wrHeld = s.wrHeld ∧
    (tCancel s).rdHeld = s.rdHeld ∧ (tCancel s).resultBool = s.resultBool ∧ (tCancel s).resultPos = s.resultPos ∧
    (tCancel s).sweepValid = s.sweepValid ∧ (tCancel s).sweepPos = s.sweepPos ∧
    (tCancel s).disableFail = s.disableFail ∧ (tCancel s).phase = s.phase ∧ (tCancel s).cmdOp = s.cmdOp ∧
    (tCancel s).cmdId = s.cmdId ∧ (tCancel s).cmdOpnd = s.cmdOpnd ∧ (tCancel s).posc = s.posc ∧
    (tCancel s).idx = s.idx ∧ (tCancel s).timer = s.timer ∧ (tCancel s).txbuf = s.txbuf ∧
    (tCancel s).rxbuf = s.rxbuf ∧ (tCancel s).req = none ∧ (tCancel s).rxUsable = s.rxUsable ∧
    (tCancel s).regSel = s.regSel ∧ (tCancel s).trace = s.trace ++ [.cancel] ∧ (tCancel s).inputs = s.inputs :=
  ⟨rfl, rfl, rfl, rfl, rfl, rfl, rfl, rfl, rfl, rfl, rfl, rfl, rfl, rfl, rfl, rfl, rfl, rfl, rfl, rfl, rfl, rfl, rfl⟩

@[simp] theorem acquireRead_fields :
    (acquireRead s).lastStatus = s.lastStatus ∧ (acquireRead s).conn = s.conn ∧ (acquireRead s).wrHeld = s.wrHeld ∧
    (acquireRead s).rdHeld = true ∧ (acquireRead s).resultBool = s.resultBool ∧
    (acquireRead s).resultPos = s.resultPos ∧ (acquireRead s).sweepValid = s.sweepValid ∧
    (acquireRead s).sweepPos = s.sweepPos ∧ (acquireRead s).disableFail = s.disableFail ∧
    (acquireRead s).phase = s.phase ∧ (acquireRead s).cmdOp = s.cmdOp ∧ (acquireRead s).cmdId = s.cmdId ∧
    (acquireRead s).cmdOpnd = s.cmdOpnd ∧ (acquireRead s).posc = s.posc ∧ (acquireRead s).idx = s.idx ∧
    (acquireRead s).timer = s.timer ∧ (acquireRead s).txbuf = s.txbuf ∧ (acquireRead s).rxbuf = s.rxbuf ∧
    (acquireRead s).req = s.req ∧ (acquireRead s).rxUsable = s.rxUsable ∧ (acquireRead s).regSel = s.regSel ∧
    (acquireRead s).trace = s.trace ++ [.acqRd] ∧ (acquireRead s).inputs = s.inputs :=
  ⟨rfl, rfl, rfl, rfl, rfl, rfl, rfl, rfl, rfl, rfl, rfl, rfl, rfl, rfl, rfl, rfl, rfl, rfl, rfl, rfl, rfl, rfl, rfl⟩

@[simp] theorem releaseRead_fields :
    (releaseRead s).lastStatus = s.lastStatus ∧ (releaseRead s).conn = s.conn ∧ (releaseRead s).wrHeld = s.wrHeld ∧
    (releaseRead s).rdHeld = false ∧ (releaseRead s).resultBool = s.resultBool ∧
    (releaseRead s).resultPos = s.resultPos ∧ (releaseRead s).sweepValid = s.sweepValid ∧
    (releaseRead s).sweepPos = s.sweepPos ∧ (releaseRead s).disableFail = s.disableFail ∧
    (releaseRead s).phase = s.phase ∧ (releaseRead s).cmdOp = s.cmdOp ∧ (releaseRead s).cmdId = s.cmdId ∧
    (releaseRead s).cmdOpnd = s.cmdOpnd ∧ (releaseRead s).posc = s.posc ∧ (releaseRead s).idx = s.idx ∧
    (releaseRead s).timer = s.timer ∧ (releaseRead s).txbuf = s.txbuf ∧ (releaseRead s).rxbuf = s.rxbuf ∧
    (releaseRead s).req = s.req ∧ (releaseRead s).rxUsable = s.rxUsable ∧ (releaseRead s).regSel = s.regSel ∧
    (releaseRead s).trace = s.trace ++ [.relRd] ∧ (releaseRead s).inputs = s.inputs :=
  ⟨rfl, rfl, rfl, rfl, rfl, rfl, rfl, rfl, rfl, rfl, rfl, rfl, rfl, rfl, rfl, rfl, rfl, rfl, rfl, rfl, rfl, rfl, rfl⟩

@[simp] theorem releaseWrite_fields :
    (releaseWrite s).lastStatus = s.lastStatus ∧ (releaseWrite s).conn = s.conn ∧ (releaseWrite s).wrHeld = false ∧
    (releaseWrite s).rdHeld = s.rdHeld ∧ (releaseWrite s).resultBool = s.resultBool ∧
    (releaseWrite s).resultPos = s.resultPos ∧ (releaseWrite s).sweepValid = s.sweepValid ∧
    (releaseWrite s).sweepPos = s.sweepPos ∧ (releaseWrite s).disableFail = s.disableFail ∧
    (releaseWrite s).phase = s.phase ∧ (releaseWrite s).cmdOp = s.cmdOp ∧ (releaseWrite s).cmdId = s.cmdId ∧
    (releaseWrite s).cmdOpnd = s.cmdOpnd ∧ (releaseWrite s).posc = s.posc ∧ (releaseWrite s).idx = s.idx ∧
    (releaseWrite s).timer = s.timer ∧ (releaseWrite s).txbuf = s.txbuf ∧ (releaseWrite s).rxbuf = s.rxbuf ∧
    (releaseWrite s).req = s.req ∧ (releaseWrite s).rxUsable = s.rxUsable ∧ (releaseWrite s).regSel = s.regSel ∧
    (releaseWrite s).trace = s.trace ++ [.relWr] ∧ (releaseWrite s).inputs = s.inputs :=
  ⟨rfl, rfl, rfl, rfl, rfl, rfl, rfl, rfl, rfl, rfl, rfl, rfl, rfl, rfl, rfl, rfl, rfl, rfl, rfl, rfl, rfl, rfl, rfl⟩

@[simp] theorem complete_fields (st : Status) :
    (complete st s).lastStatus = st ∧ (complete st s).conn = s.conn ∧ (complete st s).wrHeld = s.wrHeld ∧
    (complete st s).rdHeld = s.rdHeld ∧ (complete st s).resultBool = s.resultBool ∧
    (complete st s).resultPos = s.resultPos ∧ (complete st s).sweepValid = s.sweepValid ∧
    (complete st s).sweepPos = s.sweepPos ∧ (complete st s).disableFail = s.disableFail ∧
    (complete st s).phase = .idle ∧ (complete st s).cmdOp = s.cmdOp ∧ (complete st s).cmdId = s.cmdId ∧
    (complete st s).cmdOpnd = s.cmdOpnd ∧ (complete st s).posc = s.posc ∧ (complete st s).idx = s.idx ∧
    (complete st s).timer = s.timer ∧ (complete st s).txbuf = s.txbuf ∧ (complete st s).rxbuf = s.rxbuf ∧
    (complete st s).req = s.req ∧ (complete st s).rxUsable = s.rxUsable ∧ (complete st s).regSel = s.regSel ∧
    (complete st s).trace = s.trace ++ [.done st] ∧ (complete st s).inputs = s.inputs :=
  ⟨rfl, rfl, rfl, rfl, rfl, rfl, rfl, rfl, rfl, rfl, rfl, rfl, rfl, rfl, rfl, rfl, rfl, rfl, rfl, rfl, rfl, rfl, rfl⟩

@[simp] theorem raise_fields (st : Status) :
    (raise st s).lastStatus = st ∧ (raise st s).conn = s.conn ∧ (raise st s).wrHeld = s.wrHeld ∧
    (raise st s).rdHeld = s.rdHeld ∧ (raise st s).resultBool = s.resultBool ∧ (raise st s).resultPos = s.resultPos ∧
    (raise st s).sweepValid = s.sweepValid ∧ (raise st s).sweepPos = s.sweepPos ∧
    (raise st s).disableFail = s.disableFail ∧ (raise st s).phase = .idle ∧ (raise st s).cmdOp = s.cmdOp ∧
    (raise st s).cmdId = s.cmdId ∧ (raise st s).cmdOpnd = s.cmdOpnd ∧ (raise st s).posc = s.posc ∧
    (raise st s).idx = s.idx ∧ (raise st s).timer = s.timer ∧ (raise st s).txbuf = s.txbuf ∧
    (raise st s).rxbuf = s.rxbuf ∧ (raise st s).req = s.req ∧ (raise st s).rxUsable = s.rxUsable ∧
    (raise st s).regSel = s.regSel ∧ (raise st s).trace = s.trace ++ [.done st] ∧ (raise st s).inputs = s.inputs :=
  ⟨rfl, rfl, rfl, rfl, rfl, rfl, rfl, rfl, rfl, rfl, rfl, rfl, rfl, rfl, rfl, rfl, rfl, rfl, rfl, rfl, rfl, rfl, rfl⟩

@[simp] theorem issuePacket_fields (b : List Byte) (ph : Phase) :
    (issuePacket b ph s).lastStatus = s.lastStatus ∧ (issuePacket b ph s).conn = s.conn ∧
    (issuePacket b ph s).wrHeld = s.wrHeld ∧ (issuePacket b ph s).rdHeld = s.rdHeld ∧
    (issuePacket b ph s).resultBool = s.resultBool ∧ (issuePacket b ph s).resultPos = s.resultPos ∧
    (issuePacket b ph s).sweepValid = s.sweepValid ∧ (issuePacket b ph s).sweepPos = s.sweepPos ∧
    (issuePacket b ph s).disableFail = s.disableFail ∧ (issuePacket b ph s).phase = ph ∧
    (issuePacket b ph s).cmdOp = s.cmdOp ∧ (issuePacket b ph s).cmdId = s.cmdId ∧
    (issuePacket b ph s).cmdOpnd = s.cmdOpnd ∧ (issuePacket b ph s).posc = s.posc ∧
    (issuePacket b ph s).idx = s.idx ∧ (issuePacket b ph s).timer = s.timer ∧ (issuePacket b ph s).txbuf = b ∧
    (issuePacket b ph s).rxbuf = s.rxbuf ∧ (issuePacket b ph s).req = some (.write b) ∧
    (issuePacket b ph s).rxUsable = s.rxUsable ∧ (issuePacket b ph s).regSel = s.regSel ∧
    (issuePacket b ph s).trace = s.trace ++ [.request (.write b)] ∧ (issuePacket b ph s).inputs = s.inputs :=
  ⟨rfl, rfl, rfl, rfl, rfl, rfl, rfl, rfl, rfl, rfl, rfl, rfl, rfl, rfl, rfl, rfl, rfl, rfl, rfl, rfl, rfl, rfl, rfl⟩

@[simp] theorem startRead_fields (i : Byte) :
    (startRead i s).lastStatus = s.lastStatus ∧ (startRead i s).conn = s.conn ∧ (startRead i s).wrHeld = s.wrHeld ∧
    (startRead i s).rdHeld = true ∧ (startRead i s).resultBool = s.resultBool ∧
    (startRead i s).resultPos = s.resultPos ∧ (startRead i s).sweepValid = s.sweepValid ∧
    (startRead i s).sweepPos = s.sweepPos ∧ (startRead i s).disableFail = s.disableFail ∧
    (startRead i s).phase = .rWrite ∧ (startRead i s).cmdOp = s.cmdOp ∧ (startRead i s).cmdId = s.cmdId ∧
    (startRead i s).cmdOpnd = s.cmdOpnd ∧ (startRead i s).posc = s.posc ∧ (startRead i s).idx = s.idx ∧
    (startRead i s).timer = s.timer ∧ (startRead i s).txbuf = encReadPosition i ∧ (startRead i s).rxbuf = s.rxbuf ∧
    (startRead i s).req = some (.write (encReadPosition i)) ∧ (startRead i s).rxUsable = s.rxUsable ∧
    (startRead i s).regSel = s.regSel ∧
    (startRead i s).trace = s.trace ++ [.acqRd] ++ [.request (.write (encReadPosition i))] ∧
    (startRead i s).inputs = s.inputs :=
  ⟨rfl, rfl, rfl, rfl, rfl, rfl, rfl, rfl, rfl, rfl, rfl, rfl, rfl, rfl, rfl, rfl, rfl, rfl, rfl, rfl, rfl, rfl, rfl⟩

@[simp] theorem storeSweepEntry_fields (v : Option (BitVec 16)) :
    (storeSweepEntry v s).lastStatus = s.lastStatus ∧ (storeSweepEntry v s).conn = s.conn ∧
    (storeSweepEntry v s).wrHeld = s.wrHeld ∧ (storeSweepEntry v s).rdHeld = s.rdHeld ∧
    (storeSweepEntry v s).resultBool = s.resultBool ∧ (storeSweepEntry v s).resultPos = s.resultPos ∧
    (storeSweepEntry v s).sweepValid = setMotorBit s.sweepValid s.idx v.isSome ∧
    (storeSweepEntry v s).sweepPos = setMotorPos s.sweepPos s.idx (v.getD 0#16) ∧
    (storeSweepEntry v s).disableFail = s.disableFail ∧ (storeSweepEntry v s).phase = .sGap ∧
    (storeSweepEntry v s).cmdOp = s.cmdOp ∧ (storeSweepEntry v s).cmdId = s.cmdId ∧
    (storeSweepEntry v s).cmdOpnd = s.cmdOpnd ∧ (storeSweepEntry v s).posc = s.posc ∧
    (storeSweepEntry v s).idx = s.idx ∧ (storeSweepEntry v s).timer = Config.sweepGapTicks ∧
    (storeSweepEntry v s).txbuf = s.txbuf ∧ (storeSweepEntry v s).rxbuf = s.rxbuf ∧
    (storeSweepEntry v s).req = s.req ∧ (storeSweepEntry v s).rxUsable = s.rxUsable ∧
    (storeSweepEntry v s).regSel = s.regSel ∧ (storeSweepEntry v s).trace = s.trace ∧
    (storeSweepEntry v s).inputs = s.inputs :=
  ⟨rfl, rfl, rfl, rfl, rfl, rfl, rfl, rfl, rfl, rfl, rfl, rfl, rfl, rfl, rfl, rfl, rfl, rfl, rfl, rfl, rfl, rfl, rfl⟩

@[simp] theorem disableStep_fields :
    (disableStep s).lastStatus = s.lastStatus ∧ (disableStep s).conn = s.conn ∧ (disableStep s).wrHeld = s.wrHeld ∧
    (disableStep s).rdHeld = s.rdHeld ∧ (disableStep s).resultBool = s.resultBool ∧
    (disableStep s).resultPos = s.resultPos ∧ (disableStep s).sweepValid = s.sweepValid ∧
    (disableStep s).sweepPos = s.sweepPos ∧ (disableStep s).disableFail = s.disableFail ∧
    (disableStep s).phase = .dWrite ∧ (disableStep s).cmdOp = s.cmdOp ∧ (disableStep s).cmdId = s.cmdId ∧
    (disableStep s).cmdOpnd = s.cmdOpnd ∧ (disableStep s).posc = s.posc ∧ (disableStep s).idx = s.idx ∧
    (disableStep s).timer = s.timer ∧ (disableStep s).txbuf = encWriteTorqueEnable (s.idx.setWidth 8) false ∧
    (disableStep s).rxbuf = s.rxbuf ∧
    (disableStep s).req = some (.write (encWriteTorqueEnable (s.idx.setWidth 8) false)) ∧
    (disableStep s).rxUsable = s.rxUsable ∧ (disableStep s).regSel = s.regSel ∧
    (disableStep s).trace = s.trace ++ [.request (.write (encWriteTorqueEnable (s.idx.setWidth 8) false))] ∧
    (disableStep s).inputs = s.inputs :=
  ⟨rfl, rfl, rfl, rfl, rfl, rfl, rfl, rfl, rfl, rfl, rfl, rfl, rfl, rfl, rfl, rfl, rfl, rfl, rfl, rfl, rfl, rfl, rfl⟩

@[simp] theorem beginDisableGap_fields :
    (beginDisableGap s).lastStatus = s.lastStatus ∧ (beginDisableGap s).conn = s.conn ∧
    (beginDisableGap s).wrHeld = s.wrHeld ∧ (beginDisableGap s).rdHeld = s.rdHeld ∧
    (beginDisableGap s).resultBool = s.resultBool ∧ (beginDisableGap s).resultPos = s.resultPos ∧
    (beginDisableGap s).sweepValid = s.sweepValid ∧ (beginDisableGap s).sweepPos = s.sweepPos ∧
    (beginDisableGap s).disableFail = s.disableFail ∧ (beginDisableGap s).phase = .dGap ∧
    (beginDisableGap s).cmdOp = s.cmdOp ∧ (beginDisableGap s).cmdId = s.cmdId ∧
    (beginDisableGap s).cmdOpnd = s.cmdOpnd ∧ (beginDisableGap s).posc = s.posc ∧ (beginDisableGap s).idx = s.idx ∧
    (beginDisableGap s).timer = Config.disableGapTicks ∧ (beginDisableGap s).txbuf = s.txbuf ∧
    (beginDisableGap s).rxbuf = s.rxbuf ∧ (beginDisableGap s).req = s.req ∧
    (beginDisableGap s).rxUsable = s.rxUsable ∧ (beginDisableGap s).regSel = s.regSel ∧
    (beginDisableGap s).trace = s.trace ∧ (beginDisableGap s).inputs = s.inputs :=
  ⟨rfl, rfl, rfl, rfl, rfl, rfl, rfl, rfl, rfl, rfl, rfl, rfl, rfl, rfl, rfl, rfl, rfl, rfl, rfl, rfl, rfl, rfl, rfl⟩

@[simp] theorem takeWord_fields (w : HostWord) :
    (takeWord w s).lastStatus = s.lastStatus ∧ (takeWord w s).conn = s.conn ∧ (takeWord w s).wrHeld = s.wrHeld ∧
    (takeWord w s).rdHeld = s.rdHeld ∧ (takeWord w s).resultBool = s.resultBool ∧
    (takeWord w s).resultPos = s.resultPos ∧ (takeWord w s).sweepValid = s.sweepValid ∧
    (takeWord w s).sweepPos = s.sweepPos ∧ (takeWord w s).disableFail = s.disableFail ∧
    (takeWord w s).phase = s.phase ∧ (takeWord w s).cmdOp = hostOp w ∧ (takeWord w s).cmdId = hostId w ∧
    (takeWord w s).cmdOpnd = hostOpnd w ∧ (takeWord w s).posc = s.posc ∧ (takeWord w s).idx = s.idx ∧
    (takeWord w s).timer = s.timer ∧ (takeWord w s).txbuf = s.txbuf ∧ (takeWord w s).rxbuf = s.rxbuf ∧
    (takeWord w s).req = s.req ∧ (takeWord w s).rxUsable = s.rxUsable ∧ (takeWord w s).regSel = s.regSel ∧
    (takeWord w s).trace = s.trace ++ [.cmd w] ∧ (takeWord w s).inputs = s.inputs :=
  ⟨rfl, rfl, rfl, rfl, rfl, rfl, rfl, rfl, rfl, rfl, rfl, rfl, rfl, rfl, rfl, rfl, rfl, rfl, rfl, rfl, rfl, rfl, rfl⟩

@[simp] theorem takeRejected_fields (w : HostWord) :
    (takeRejected w s).lastStatus = s.lastStatus ∧ (takeRejected w s).conn = s.conn ∧
    (takeRejected w s).wrHeld = s.wrHeld ∧ (takeRejected w s).rdHeld = s.rdHeld ∧
    (takeRejected w s).resultBool = s.resultBool ∧ (takeRejected w s).resultPos = s.resultPos ∧
    (takeRejected w s).sweepValid = s.sweepValid ∧ (takeRejected w s).sweepPos = s.sweepPos ∧
    (takeRejected w s).disableFail = s.disableFail ∧ (takeRejected w s).phase = s.phase ∧
    (takeRejected w s).cmdOp = s.cmdOp ∧ (takeRejected w s).cmdId = s.cmdId ∧ (takeRejected w s).cmdOpnd = s.cmdOpnd ∧
    (takeRejected w s).posc = s.posc ∧ (takeRejected w s).idx = s.idx ∧ (takeRejected w s).timer = s.timer ∧
    (takeRejected w s).txbuf = s.txbuf ∧ (takeRejected w s).rxbuf = s.rxbuf ∧ (takeRejected w s).req = s.req ∧
    (takeRejected w s).rxUsable = s.rxUsable ∧ (takeRejected w s).regSel = s.regSel ∧
    (takeRejected w s).trace = s.trace ++ [.cmd w] ∧ (takeRejected w s).inputs = s.inputs :=
  ⟨rfl, rfl, rfl, rfl, rfl, rfl, rfl, rfl, rfl, rfl, rfl, rfl, rfl, rfl, rfl, rfl, rfl, rfl, rfl, rfl, rfl, rfl, rfl⟩

@[simp] theorem loadChunk_fields (bs : List Byte) :
    (loadChunk bs s).lastStatus = s.lastStatus ∧ (loadChunk bs s).conn = s.conn ∧ (loadChunk bs s).wrHeld = s.wrHeld ∧
    (loadChunk bs s).rdHeld = s.rdHeld ∧ (loadChunk bs s).resultBool = s.resultBool ∧
    (loadChunk bs s).resultPos = s.resultPos ∧ (loadChunk bs s).sweepValid = s.sweepValid ∧
    (loadChunk bs s).sweepPos = s.sweepPos ∧ (loadChunk bs s).disableFail = s.disableFail ∧
    (loadChunk bs s).phase = s.phase ∧ (loadChunk bs s).cmdOp = s.cmdOp ∧ (loadChunk bs s).cmdId = s.cmdId ∧
    (loadChunk bs s).cmdOpnd = s.cmdOpnd ∧ (loadChunk bs s).posc = s.posc ∧ (loadChunk bs s).idx = s.idx ∧
    (loadChunk bs s).timer = s.timer ∧ (loadChunk bs s).txbuf = s.txbuf ∧ (loadChunk bs s).rxbuf = bs ∧
    (loadChunk bs s).req = s.req ∧ (loadChunk bs s).rxUsable = s.rxUsable ∧ (loadChunk bs s).regSel = s.regSel ∧
    (loadChunk bs s).trace = s.trace ∧ (loadChunk bs s).inputs = s.inputs :=
  ⟨rfl, rfl, rfl, rfl, rfl, rfl, rfl, rfl, rfl, rfl, rfl, rfl, rfl, rfl, rfl, rfl, rfl, rfl, rfl, rfl, rfl, rfl, rfl⟩

@[simp] theorem rejectIllegal_fields (w : HostWord) :
    (rejectIllegal w s).lastStatus = .illegalCommand ∧ (rejectIllegal w s).conn = s.conn ∧
    (rejectIllegal w s).wrHeld = s.wrHeld ∧ (rejectIllegal w s).rdHeld = s.rdHeld ∧
    (rejectIllegal w s).resultBool = s.resultBool ∧ (rejectIllegal w s).resultPos = s.resultPos ∧
    (rejectIllegal w s).sweepValid = s.sweepValid ∧ (rejectIllegal w s).sweepPos = s.sweepPos ∧
    (rejectIllegal w s).disableFail = s.disableFail ∧ (rejectIllegal w s).phase = .idle ∧
    (rejectIllegal w s).cmdOp = s.cmdOp ∧ (rejectIllegal w s).cmdId = s.cmdId ∧
    (rejectIllegal w s).cmdOpnd = s.cmdOpnd ∧ (rejectIllegal w s).posc = s.posc ∧ (rejectIllegal w s).idx = s.idx ∧
    (rejectIllegal w s).timer = s.timer ∧ (rejectIllegal w s).txbuf = s.txbuf ∧ (rejectIllegal w s).rxbuf = s.rxbuf ∧
    (rejectIllegal w s).req = s.req ∧ (rejectIllegal w s).rxUsable = s.rxUsable ∧
    (rejectIllegal w s).regSel = s.regSel ∧
    (rejectIllegal w s).trace = s.trace ++ [.cmd w] ++ [.done .illegalCommand] ∧
    (rejectIllegal w s).inputs = s.inputs :=
  ⟨rfl, rfl, rfl, rfl, rfl, rfl, rfl, rfl, rfl, rfl, rfl, rfl, rfl, rfl, rfl, rfl, rfl, rfl, rfl, rfl, rfl, rfl, rfl⟩

@[simp] theorem takeOutcome_fields (a : Answer) :
    (takeOutcome a s).lastStatus = s.lastStatus ∧ (takeOutcome a s).conn = s.conn ∧
    (takeOutcome a s).wrHeld = s.wrHeld ∧ (takeOutcome a s).rdHeld = s.rdHeld ∧
    (takeOutcome a s).resultBool = s.resultBool ∧ (takeOutcome a s).resultPos = s.resultPos ∧
    (takeOutcome a s).sweepValid = s.sweepValid ∧ (takeOutcome a s).sweepPos = s.sweepPos ∧
    (takeOutcome a s).disableFail = s.disableFail ∧ (takeOutcome a s).phase = s.phase ∧
    (takeOutcome a s).cmdOp = s.cmdOp ∧ (takeOutcome a s).cmdId = s.cmdId ∧ (takeOutcome a s).cmdOpnd = s.cmdOpnd ∧
    (takeOutcome a s).posc = s.posc ∧ (takeOutcome a s).idx = s.idx ∧ (takeOutcome a s).timer = s.timer ∧
    (takeOutcome a s).txbuf = s.txbuf ∧ (takeOutcome a s).rxbuf = s.rxbuf ∧ (takeOutcome a s).req = none ∧
    (takeOutcome a s).rxUsable = s.rxUsable ∧ (takeOutcome a s).regSel = s.regSel ∧
    (takeOutcome a s).trace = s.trace ++ [.answer a] ∧ (takeOutcome a s).inputs = s.inputs :=
  ⟨rfl, rfl, rfl, rfl, rfl, rfl, rfl, rfl, rfl, rfl, rfl, rfl, rfl, rfl, rfl, rfl, rfl, rfl, rfl, rfl, rfl, rfl, rfl⟩

@[simp] theorem countDown_fields :
    (countDown s).lastStatus = s.lastStatus ∧ (countDown s).conn = s.conn ∧ (countDown s).wrHeld = s.wrHeld ∧
    (countDown s).rdHeld = s.rdHeld ∧ (countDown s).resultBool = s.resultBool ∧
    (countDown s).resultPos = s.resultPos ∧ (countDown s).sweepValid = s.sweepValid ∧
    (countDown s).sweepPos = s.sweepPos ∧ (countDown s).disableFail = s.disableFail ∧ (countDown s).phase = s.phase ∧
    (countDown s).cmdOp = s.cmdOp ∧ (countDown s).cmdId = s.cmdId ∧ (countDown s).cmdOpnd = s.cmdOpnd ∧
    (countDown s).posc = s.posc ∧ (countDown s).idx = s.idx ∧
    (countDown s).timer = (if s.timer = 0#16 then 0#16 else s.timer - 1#16) ∧ (countDown s).txbuf = s.txbuf ∧
    (countDown s).rxbuf = s.rxbuf ∧ (countDown s).req = s.req ∧ (countDown s).rxUsable = s.rxUsable ∧
    (countDown s).regSel = s.regSel ∧ (countDown s).trace = s.trace ∧ (countDown s).inputs = s.inputs :=
  ⟨rfl, rfl, rfl, rfl, rfl, rfl, rfl, rfl, rfl, rfl, rfl, rfl, rfl, rfl, rfl, rfl, rfl, rfl, rfl, rfl, rfl, rfl, rfl⟩

@[simp] theorem sample_fields (p : PortIn) :
    (sample p s).lastStatus = s.lastStatus ∧ (sample p s).conn = s.conn ∧ (sample p s).wrHeld = s.wrHeld ∧
    (sample p s).rdHeld = s.rdHeld ∧ (sample p s).resultBool = s.resultBool ∧ (sample p s).resultPos = s.resultPos ∧
    (sample p s).sweepValid = s.sweepValid ∧ (sample p s).sweepPos = s.sweepPos ∧
    (sample p s).disableFail = s.disableFail ∧ (sample p s).phase = s.phase ∧ (sample p s).cmdOp = s.cmdOp ∧
    (sample p s).cmdId = s.cmdId ∧ (sample p s).cmdOpnd = s.cmdOpnd ∧ (sample p s).posc = s.posc ∧
    (sample p s).idx = s.idx ∧ (sample p s).timer = s.timer ∧ (sample p s).txbuf = s.txbuf ∧
    (sample p s).rxbuf = s.rxbuf ∧ (sample p s).req = s.req ∧ (sample p s).rxUsable = p.rxUsable ∧
    (sample p s).regSel = p.regSel ∧ (sample p s).trace = s.trace ∧ (sample p s).inputs = s.inputs :=
  ⟨rfl, rfl, rfl, rfl, rfl, rfl, rfl, rfl, rfl, rfl, rfl, rfl, rfl, rfl, rfl, rfl, rfl, rfl, rfl, rfl, rfl, rfl, rfl⟩

end Sys2Proof.Machine
end

