-- ==== Sys2Proof/Laws/Ops.lean ====
section
/-! SUPPORT. What each shared operation does, said once: the check, the end of a read, the reset pin, and each meaning's
next state by cases. -/

namespace Sys2Proof.Machine

/-- Opening a finite conjunction of facts about all six motors into the six (used with `decide`). -/
theorem forall_fin6 {P : Fin 6 → Prop} : (∀ i, P i) ↔ P 0 ∧ P 1 ∧ P 2 ∧ P 3 ∧ P 4 ∧ P 5 :=
  ⟨fun h => ⟨h 0, h 1, h 2, h 3, h 4, h 5⟩, fun ⟨h0, h1, h2, h3, h4, h5⟩ i =>
    match i with | 0 => h0 | 1 => h1 | 2 => h2 | 3 => h3 | 4 => h4 | 5 => h5⟩

/-! ### The tick counts and the reset pin -/

@[simp] theorem readTimeoutTicks_eq : Config.readTimeoutTicks = 2000#16 := by decide
@[simp] theorem sweepGapTicks_eq : Config.sweepGapTicks = 50#16 := by decide
@[simp] theorem disableGapTicks_eq : Config.disableGapTicks = 20#16 := by decide

/-- The reset pin: reset's registers, with the trace, the levels and the inputs kept (R230, R231). -/
theorem resetByPin_eq (s : State) : resetByPin s =
    { State.reset with rxUsable := s.rxUsable, regSel := s.regSel, trace := s.trace, inputs := s.inputs } := rfl

/-! ### The connection check -/

@[simp] theorem requireConnected_of_conn {s : State} (k : State → State) (h : s.conn = true) :
    requireConnected k s = k s := by simp [requireConnected, h]

@[simp] theorem requireConnected_of_not {s : State} (k : State → State) (h : s.conn = false) :
    requireConnected k s = raise .notConnected s := by simp [requireConnected, h]

/-! ### The end of a read -/

theorem finishRead_readPos {s : State} (v : Option (BitVec 16)) (h : s.cmdOp = 0x3#4) :
    finishRead v s = complete .ok { releaseRead s with resultPos := posRegister v } := by simp [finishRead, h]

theorem finishRead_readAll {s : State} (v : Option (BitVec 16)) (h : s.cmdOp = 0x4#4) :
    finishRead v s = storeSweepEntry v (releaseRead s) := by simp [finishRead, h]

theorem finishRead_other {s : State} (v : Option (BitVec 16)) (h3 : s.cmdOp ≠ 0x3#4) (h4 : s.cmdOp ≠ 0x4#4) :
    finishRead v s = releaseRead s := by simp [finishRead, h3, h4]

/-- Everything the end of a read can do. -/
theorem finishRead_cases (v : Option (BitVec 16)) (s : State) :
    (s.cmdOp = 0x3#4 ∧ finishRead v s = complete .ok { releaseRead s with resultPos := posRegister v }) ∨
    (s.cmdOp = 0x4#4 ∧ finishRead v s = storeSweepEntry v (releaseRead s)) ∨
    (s.cmdOp ≠ 0x3#4 ∧ s.cmdOp ≠ 0x4#4 ∧ finishRead v s = releaseRead s) := by
  by_cases h3 : s.cmdOp = 0x3#4
  · exact .inl ⟨h3, finishRead_readPos v h3⟩
  · by_cases h4 : s.cmdOp = 0x4#4
    · exact .inr (.inl ⟨h4, finishRead_readAll v h4⟩)
    · exact .inr (.inr ⟨h3, h4, finishRead_other v h3 h4⟩)

/-- What the end of a read never touches, whatever the command. -/
@[simp] theorem finishRead_frame (v : Option (BitVec 16)) (s : State) :
    (finishRead v s).conn = s.conn ∧ (finishRead v s).wrHeld = s.wrHeld ∧ (finishRead v s).rdHeld = false ∧
    (finishRead v s).resultBool = s.resultBool ∧ (finishRead v s).disableFail = s.disableFail ∧
    (finishRead v s).cmdOp = s.cmdOp ∧ (finishRead v s).cmdId = s.cmdId ∧ (finishRead v s).cmdOpnd = s.cmdOpnd ∧
    (finishRead v s).posc = s.posc ∧ (finishRead v s).idx = s.idx ∧ (finishRead v s).txbuf = s.txbuf ∧
    (finishRead v s).rxbuf = s.rxbuf ∧ (finishRead v s).req = s.req ∧ (finishRead v s).rxUsable = s.rxUsable ∧
    (finishRead v s).regSel = s.regSel ∧ (finishRead v s).inputs = s.inputs := by
  rcases finishRead_cases v s with ⟨-, h⟩ | ⟨-, h⟩ | ⟨-, -, h⟩ <;> simp [h]

/-- A chunk taken: the read ends with what the parser makes of it, and rxbuf is empty after the step (R171, R40). -/
theorem finishChunk_loadChunk (bs : List Byte) (s : State) : finishChunk (loadChunk bs s) =
    finishRead (decodePositionResponse (some bs)) { s with rxbuf := [] } := by
  rcases finishRead_cases (decodePositionResponse (some bs)) s with ⟨h, -⟩ | ⟨h, -⟩ | ⟨h, h', -⟩
  · rw [finishRead_readPos _ (by exact h)]
    simp only [finishChunk, loadChunk]
    rw [finishRead_readPos _ (by exact h)]; rfl
  · rw [finishRead_readAll _ (by exact h)]
    simp only [finishChunk, loadChunk]
    rw [finishRead_readAll _ (by exact h)]; rfl
  · rw [finishRead_other _ (by exact h) (by exact h')]
    simp only [finishChunk, loadChunk]
    rw [finishRead_other _ (by exact h) (by exact h')]; rfl

/-! ### Motor entries -/

theorem motorMask_lit (n : Nat) (h1 : 1 ≤ n) (h6 : n ≤ 6) :
    motorMask (BitVec.ofNat 3 n) = 1#6 <<< (n - 1) := by
  interval_cases n <;> decide

/-- Writing a motor's bit writes bit i-1 and no other (R31, R32). -/
theorem setMotorBit_get (r : BitVec 6) (m : BitVec 3) (b : Bool) (i : Fin 6) :
    (setMotorBit r m b).getLsbD i = if i.val + 1 = m.toNat then b else r.getLsbD i := by
  revert r m b i; decide

/-- Writing a motor's entry writes entry i and no other (R31). -/
theorem setMotorPos_get (f : Vector (BitVec 16) 6) (m : BitVec 3) (v : BitVec 16) (i : Fin 6) :
    (setMotorPos f m v)[i] = if i.val + 1 = m.toNat then v else f[i] := by
  obtain ⟨i, hi⟩ := i
  unfold setMotorPos
  by_cases h0 : m = 0#3
  · subst h0; simp
  · have hm : m.toNat ≠ 0 := fun h => h0 (BitVec.eq_of_toNat_eq (by simpa using h))
    rw [if_neg h0]
    simp only [Fin.getElem_fin, Vector.getElem_setIfInBounds]
    by_cases hc : m.toNat - 1 = i
    · rw [if_pos hc, if_pos (by omega)]
    · rw [if_neg hc, if_neg (by omega)]

/-! ### The meanings -/

/-- CONNECT's next state (R141). -/
theorem execConnect_cases (baud : BitVec 32) (s : State) :
    (s.conn = true ∧ execConnect baud s = .next (raise .alreadyConnected s)) ∨
    (s.conn = false ∧ execConnect baud s = .next (issue (.openStream baud) { s with phase := .cOpen })) := by
  cases h : s.conn <;> simp [execConnect, h]

/-- DISCONNECT's next state (R142). -/
theorem execDisconnect_cases (s : State) :
    (s.conn = true ∧ execDisconnect s = .next (disableStep { s with disableFail := 0#6, idx := 1#3 })) ∨
    (s.conn = false ∧ execDisconnect s = .next (complete .ok s)) := by
  cases h : s.conn <;> simp [execDisconnect, h]

/-- READPOS's next state (R170). -/
theorem execReadPos_cases (id : Byte) (s : State) :
    (s.conn = true ∧ execReadPos id s = .next (startRead id s)) ∨
    (s.conn = false ∧ execReadPos id s = .next (raise .notConnected s)) := by
  cases h : s.conn <;> simp [execReadPos, h]

/-- READALL's next state (R176). -/
theorem execReadAll_cases (s : State) :
    (s.conn = true ∧ execReadAll s = .next (startRead 1#8 { s with idx := 1#3 })) ∨
    (s.conn = false ∧ execReadAll s = .next (raise .notConnected s)) := by
  cases h : s.conn <;> simp [execReadAll, h]

/-- WRITEPOS's next state (R175). -/
theorem execWritePos_cases (id : Byte) (opnd : BitVec 32) (s : State) :
    (s.conn = true ∧ execWritePos id opnd s =
      .next (issuePacket (encWritePosition id (clamp (requestedPos opnd)).toNat) .wWrite
        { s with posc := clamp (requestedPos opnd) })) ∨
    (s.conn = false ∧ execWritePos id opnd s = .next (raise .notConnected s)) := by
  cases h : s.conn <;> simp [execWritePos, h]

end Sys2Proof.Machine
end

