-- ==== Sys2Proof/Laws/Step.lean ====
section
/-! SUPPORT. What a step can do, said once: the inversion of the step, of the orchestrator and of taking an outcome. A
later proof splits by these and unfolds neither. -/

namespace Sys2Proof.Machine

/-- With no pin record the step changes nothing (log 1). -/
theorem step_nil {s : State} (h : s.inputs = []) : step s = .next s := by
  simp [step, h]

/-- With a pin record the step is reset or the orchestrator's, on the sampled state. -/
theorem step_cons {s : State} {p : PortIn} {rest : List PortIn} (h : s.inputs = p :: rest) :
    step s = if p.reset then .next (resetByPin (s.after p rest)) else orchestrate p (s.after p rest) := by
  simp only [step, h, stepPins]
  rfl

theorem step_reset {s : State} {p : PortIn} {rest : List PortIn} (h : s.inputs = p :: rest) (hr : p.reset = true) :
    step s = .next (resetByPin (s.after p rest)) := by
  rw [step_cons h, if_pos hr]

theorem step_pins {s : State} {p : PortIn} {rest : List PortIn} (h : s.inputs = p :: rest) (hr : p.reset = false) :
    step s = orchestrate p (s.after p rest) := by
  rw [step_cons h, if_neg (by simp [hr])]

/-- The sampled state: the inputs and the level pins are new, every other field is the old one. -/
@[simp] theorem after_fields (s : State) (p : PortIn) (rest : List PortIn) :
    (s.after p rest).inputs = rest ∧ (s.after p rest).rxUsable = p.rxUsable ∧ (s.after p rest).regSel = p.regSel ∧
    (s.after p rest).lastStatus = s.lastStatus ∧ (s.after p rest).conn = s.conn ∧
    (s.after p rest).wrHeld = s.wrHeld ∧ (s.after p rest).rdHeld = s.rdHeld ∧
    (s.after p rest).resultBool = s.resultBool ∧ (s.after p rest).resultPos = s.resultPos ∧
    (s.after p rest).sweepValid = s.sweepValid ∧ (s.after p rest).sweepPos = s.sweepPos ∧
    (s.after p rest).disableFail = s.disableFail ∧ (s.after p rest).phase = s.phase ∧
    (s.after p rest).cmdOp = s.cmdOp ∧ (s.after p rest).cmdId = s.cmdId ∧ (s.after p rest).cmdOpnd = s.cmdOpnd ∧
    (s.after p rest).posc = s.posc ∧ (s.after p rest).idx = s.idx ∧ (s.after p rest).timer = s.timer ∧
    (s.after p rest).txbuf = s.txbuf ∧ (s.after p rest).rxbuf = s.rxbuf ∧ (s.after p rest).req = s.req ∧
    (s.after p rest).trace = s.trace :=
  ⟨rfl, rfl, rfl, rfl, rfl, rfl, rfl, rfl, rfl, rfl, rfl, rfl, rfl, rfl, rfl, rfl, rfl, rfl, rfl, rfl, rfl, rfl, rfl⟩

/-! ### The time base -/

theorem countTick_eq (b : Bool) (s : State) :
    countTick b s = { s with timer := (countTick b s).timer } := by
  unfold countTick; split <;> rfl

/-- A tick touches the timer alone. -/
@[simp] theorem countTick_fields (b : Bool) (s : State) :
    (countTick b s).lastStatus = s.lastStatus ∧ (countTick b s).conn = s.conn ∧ (countTick b s).wrHeld = s.wrHeld ∧
    (countTick b s).rdHeld = s.rdHeld ∧ (countTick b s).resultBool = s.resultBool ∧
    (countTick b s).resultPos = s.resultPos ∧ (countTick b s).sweepValid = s.sweepValid ∧
    (countTick b s).sweepPos = s.sweepPos ∧ (countTick b s).disableFail = s.disableFail ∧
    (countTick b s).phase = s.phase ∧ (countTick b s).cmdOp = s.cmdOp ∧ (countTick b s).cmdId = s.cmdId ∧
    (countTick b s).cmdOpnd = s.cmdOpnd ∧ (countTick b s).posc = s.posc ∧ (countTick b s).idx = s.idx ∧
    (countTick b s).txbuf = s.txbuf ∧ (countTick b s).rxbuf = s.rxbuf ∧ (countTick b s).req = s.req ∧
    (countTick b s).rxUsable = s.rxUsable ∧ (countTick b s).regSel = s.regSel ∧ (countTick b s).trace = s.trace ∧
    (countTick b s).inputs = s.inputs := by
  unfold countTick; split <;> simp

/-- Outside the timed phases ticks are ignored (R217). -/
theorem countTick_untimed (b : Bool) {s : State} (h : s.phase.timed = false) : countTick b s = s := by
  simp [countTick, h]

/-- In a timed phase a tick is a count down (R217). -/
theorem countTick_timed {s : State} (h : s.phase.timed = true) : countTick true s = countDown s := by
  simp [countTick, h]

@[simp] theorem countTick_false (s : State) : countTick false s = s := by simp [countTick]

/-- When a step expires (R217). -/
theorem expires_iff (b : Bool) (s : State) :
    expires b s = true ↔ b = true ∧ s.phase.timed = true ∧ s.timer.toNat ≤ 1 := by
  have key : (if s.timer = 0#16 then 0#16 else s.timer - 1#16) = 0#16 ↔ s.timer.toNat ≤ 1 := by
    split
    · rename_i h; simp [h]
    · rename_i h
      constructor
      · intro h1
        have : s.timer = 1#16 := by
          have := congrArg (· + 1#16) h1
          simpa [BitVec.sub_add_cancel] using this
        simp [this]
      · intro h1
        have h0 : s.timer.toNat ≠ 0 := fun h0 => h (BitVec.eq_of_toNat_eq (by simpa using h0))
        have : s.timer = 1#16 := BitVec.eq_of_toNat_eq (by simp; omega)
        simp [this]
  simp only [expires, Bool.and_eq_true, decide_eq_true_eq, countDown_fields, key, and_assoc]

/-! ### The orchestrator -/

/-- Everything the orchestrator can do, if it answers a next state: nothing but a tick; a legal command; an illegal
word; an expiry; an outcome. -/
theorem orchestrate_cases {p : PortIn} {s t : State} (h : orchestrate p s = .next t) :
    (p.answer = none ∧ expires p.tick s = false ∧ (s.phase = .idle → p.cmd = none) ∧ t = countTick p.tick s) ∨
    (p.answer = none ∧ s.phase = .idle ∧ ∃ w i, p.cmd = some w ∧ decodeHostWord w = .ok i ∧
      exec i (takeLegal i w s) = .next t) ∨
    (p.answer = none ∧ s.phase = .idle ∧ ∃ w e, p.cmd = some w ∧ decodeHostWord w = .rejected e ∧
      t = rejectIllegal w s) ∨
    (expires p.tick s = true ∧
      (p.answer = none ∨ ∃ a, p.answer = some a ∧ a.fits s.req = true ∧ p.answerWins = false) ∧
      t = takeExpiry (countTick p.tick s)) ∨
    (∃ a, p.answer = some a ∧ a.fits s.req = true ∧ s.inTime p ∧ takeAnswer a (countTick p.tick s) = .next t) := by
  unfold orchestrate at h
  split at h
  · rename_i a ha
    split at h
    · rename_i hf
      split at h
      · rename_i he
        simp only [Bool.and_eq_true, Bool.not_eq_true'] at he
        refine .inr (.inr (.inr (.inl ⟨he.1, .inr ⟨a, ha, hf, he.2⟩, ?_⟩)))
        simpa using h.symm
      · rename_i he
        refine .inr (.inr (.inr (.inr ⟨a, ha, hf, ?_, h⟩)))
        simp only [Bool.and_eq_true, Bool.not_eq_true', not_and_or, Bool.not_eq_true, Bool.not_eq_false] at he
        exact he
    · simp at h
  · rename_i ha
    split at h
    · rename_i he
      exact .inr (.inr (.inr (.inl ⟨he, .inl ha, by simpa using h.symm⟩)))
    · rename_i he
      have he : expires p.tick s = false := by simpa using he
      split at h
      · rename_i w hc
        split at h
        · rename_i hr
          have hp : s.phase = .idle := by simpa [State.cmdReady, State.busy] using hr
          simp only [takeCommand] at h
          split at h
          · rename_i i hd
            exact .inr (.inl ⟨ha, hp, w, i, hc, hd, h⟩)
          · rename_i e hd
            exact .inr (.inr (.inl ⟨ha, hp, w, e, hc, hd, by simpa using h.symm⟩))
        · rename_i hr
          refine .inl ⟨ha, he, fun hp => absurd ?_ hr, by simpa using h.symm⟩
          simp [State.cmdReady, State.busy, hp]
      · rename_i hc
        exact .inl ⟨ha, he, fun _ => hc, by simpa using h.symm⟩

/-- A chunk of any length ends the read with what the parser makes of it (R116, R171). -/
theorem takeChunk_eq (bs : List Byte) (s : State) :
    takeChunk bs s = .next (finishRead (decodePositionResponse (some bs)) { s with rxbuf := [] }) := by
  rw [← finishChunk_loadChunk]
  unfold takeChunk
  by_cases hl : 8 ≤ bs.length
  · rw [decodeResponse_long hl]; rfl
  · rw [decodeResponse_short (by omega)]

/-- Everything taking an outcome can do, if it answers a next state: one rule for each phase and outcome. -/
theorem takeAnswer_cases {a : Answer} {s t : State} (h : takeAnswer a s = .next t) :
    (s.phase = .cOpen ∧ a = .openOk ∧ t = connectOpened (takeOutcome a s)) ∨
    (s.phase = .cOpen ∧ a = .openErr ∧ t = connectRefused (takeOutcome a s)) ∨
    (s.phase = .rWrite ∧ a = .writeOk ∧ t = readRequestWritten (takeOutcome a s)) ∨
    (s.phase = .rWrite ∧ a = .writeErr ∧ t = finishRead none (takeOutcome a s)) ∨
    (s.phase = .rWait ∧ ∃ bs, a = .readData bs ∧
      t = finishRead (decodePositionResponse (some bs)) { takeOutcome a s with rxbuf := [] }) ∨
    (s.phase = .rWait ∧ (a = .readEnd ∨ a = .readErr) ∧ t = finishRead none (takeOutcome a s)) ∨
    (s.phase = .wWrite ∧ (a = .writeOk ∨ a = .writeErr) ∧
      t = writePosAnswered (decide (a = .writeOk)) (takeOutcome a s)) ∨
    (s.phase = .dWrite ∧ a = .writeOk ∧ t = beginDisableGap (takeOutcome a s)) ∨
    (s.phase = .dWrite ∧ a = .writeErr ∧ t = disableWriteFailed (takeOutcome a s)) ∨
    (s.phase = .dClose ∧ (a = .closeOk ∨ a = .closeErr) ∧
      t = closeAnswered (if a = .closeOk then .ok else .closeFailed) (takeOutcome a s)) := by
  unfold takeAnswer at h
  split at h
  case h_1 hp =>
    unfold inCOpen at h
    split at h <;> cases h
    · exact .inl ⟨hp, rfl, rfl⟩
    · exact .inr (.inl ⟨hp, rfl, rfl⟩)
  case h_2 hp =>
    unfold inRWrite at h
    split at h <;> cases h
    · exact .inr (.inr (.inl ⟨hp, rfl, rfl⟩))
    · exact .inr (.inr (.inr (.inl ⟨hp, rfl, rfl⟩)))
  case h_3 hp =>
    unfold inRWait at h
    split at h
    · rename_i bs
      refine .inr (.inr (.inr (.inr (.inl ⟨hp, bs, rfl, ?_⟩))))
      rw [takeChunk_eq] at h
      cases h; rfl
    · cases h; exact .inr (.inr (.inr (.inr (.inr (.inl ⟨hp, .inl rfl, rfl⟩)))))
    · cases h; exact .inr (.inr (.inr (.inr (.inr (.inl ⟨hp, .inr rfl, rfl⟩)))))
    · cases h
  case h_4 hp =>
    unfold inWWrite at h
    split at h <;> cases h
    · exact .inr (.inr (.inr (.inr (.inr (.inr (.inl ⟨hp, .inl rfl, rfl⟩))))))
    · exact .inr (.inr (.inr (.inr (.inr (.inr (.inl ⟨hp, .inr rfl, rfl⟩))))))
  case h_5 hp =>
    unfold inDWrite at h
    split at h <;> cases h
    · exact .inr (.inr (.inr (.inr (.inr (.inr (.inr (.inl ⟨hp, rfl, rfl⟩)))))))
    · exact .inr (.inr (.inr (.inr (.inr (.inr (.inr (.inr (.inl ⟨hp, rfl, rfl⟩))))))))
  case h_6 hp =>
    unfold inDClose at h
    split at h <;> cases h
    · exact .inr (.inr (.inr (.inr (.inr (.inr (.inr (.inr (.inr ⟨hp, .inl rfl, rfl⟩))))))))
    · exact .inr (.inr (.inr (.inr (.inr (.inr (.inr (.inr (.inr ⟨hp, .inr rfl, rfl⟩))))))))
  case h_7 => cases h
  case h_8 => cases h
  case h_9 => cases h

/-! ### The outcomes that fit a request (R43) -/

@[simp] theorem fits_none (a : Answer) : a.fits none = false := rfl

theorem fits_open (a : Answer) (b : BitVec 32) :
    a.fits (some (.openStream b)) = true ↔ a = .openOk ∨ a = .openErr := by
  simp [Answer.fits, Answer.answers]

theorem fits_write (a : Answer) (b : List Byte) :
    a.fits (some (.write b)) = true ↔ a = .writeOk ∨ a = .writeErr := by
  simp [Answer.fits, Answer.answers]

theorem ofRead_iff (a : Answer) (n : Nat) : a.ofRead n = true ↔
    a = .readEnd ∨ a = .readErr ∨ ∃ bs, a = .readData bs ∧ 1 ≤ bs.length ∧ bs.length ≤ n := by
  cases a <;> simp [Answer.ofRead]

theorem fits_read (a : Answer) (n : Nat) : a.fits (some (.read n)) = true ↔
    a = .readEnd ∨ a = .readErr ∨ ∃ bs, a = .readData bs ∧ 1 ≤ bs.length ∧ bs.length ≤ n :=
  ofRead_iff a n

theorem fits_close (a : Answer) : a.fits (some .closeStream) = true ↔ a = .closeOk ∨ a = .closeErr := by
  simp [Answer.fits, Answer.answers]

/-! ### Running one step forwards -/

/-- In an untimed phase every outcome is in time. -/
theorem inTime_untimed {p : PortIn} {s : State} (h : s.phase.timed = false) : s.inTime p :=
  .inl (by simp [expires, h])

/-- An outcome that fits and is in time is taken. -/
theorem orchestrate_answer {p : PortIn} {s : State} {a : Answer} (ha : p.answer = some a)
    (hf : a.fits s.req = true) (ht : s.inTime p) : orchestrate p s = takeAnswer a (countTick p.tick s) := by
  have hn : (expires p.tick s && !p.answerWins) = false := by
    rcases ht with h | h <;> simp [h]
  simp [orchestrate, ha, hf, hn]

/-- Without an outcome an expiry is taken. -/
theorem orchestrate_expiry {p : PortIn} {s : State} (ha : p.answer = none) (he : expires p.tick s = true) :
    orchestrate p s = .next (takeExpiry (countTick p.tick s)) := by
  simp [orchestrate, ha, he]

/-- Without an outcome, an expiry or a command the block takes, only the tick counts. -/
theorem orchestrate_quiet {p : PortIn} {s : State} (ha : p.answer = none) (he : expires p.tick s = false)
    (hc : s.phase ≠ .idle ∨ p.cmd = none) : orchestrate p s = .next (countTick p.tick s) := by
  simp only [orchestrate, ha, he, Bool.false_eq_true, if_false]
  cases hw : p.cmd with
  | none => rfl
  | some w =>
    have hp : s.phase ≠ .idle := hc.resolve_right (by simp [hw])
    simp [State.cmdReady, State.busy, hp]

/-- The idle block takes an offered command. -/
theorem orchestrate_command {p : PortIn} {s : State} {w : HostWord} (ha : p.answer = none) (hc : p.cmd = some w)
    (hp : s.phase = .idle) : orchestrate p s = takeCommand w s := by
  simp [orchestrate, ha, hc, expires, hp, Phase.timed, State.cmdReady, State.busy]

/-- A step on an outcome, in a phase without a deadline. -/
theorem step_answer {s : State} {p : PortIn} {rest : List PortIn} {a : Answer} (h : s.answered p rest a)
    (hf : a.fits s.req = true) (hu : s.phase.timed = false) : step s = takeAnswer a (s.after p rest) := by
  obtain ⟨hi, hr, ha⟩ := h
  rw [step_pins hi hr, orchestrate_answer ha (by simpa using hf) (inTime_untimed (by simpa using hu)),
    countTick_untimed _ (by simpa using hu)]

/-- A step on a read's outcome in time. -/
theorem step_readAnswer {s : State} {p : PortIn} {rest : List PortIn} {a : Answer} (h : s.answered p rest a)
    (hf : a.fits s.req = true) (ht : s.inTime p) :
    step s = takeAnswer a { s.after p rest with timer := (countTick p.tick s).timer } := by
  obtain ⟨hi, hr, ha⟩ := h
  have ht' : (s.after p rest).inTime p := by simpa [State.inTime, expires] using ht
  rw [step_pins hi hr, orchestrate_answer ha (by simpa using hf) ht', countTick_eq]
  congr 1
  simp [countTick]; split <;> simp

/-- A step on the last tick. -/
theorem step_expiry {s : State} {p : PortIn} {rest : List PortIn} (h : s.expiring p rest)
    (hu : s.phase.timed = true) : step s = .next (takeExpiry { s.after p rest with timer := 0#16 }) := by
  obtain ⟨hi, hr, ha, ht, hm⟩ := h
  have he : expires p.tick (s.after p rest) = true := by rw [expires_iff]; simp [ht, hu, hm]
  rw [step_pins hi hr, orchestrate_expiry ha he, ht, countTick_timed (by simpa using hu)]
  simp [countDown, hm]

/-! ### Taking a command -/

/-- A legal word runs its instruction on the state with the command taken. -/
theorem takeCommand_ok {w : HostWord} {i : Instr} (s : State) (hd : decodeHostWord w = .ok i) :
    takeCommand w s = exec i (takeLegal i w s) := by
  simp [takeCommand, hd]

theorem takeLegal_rejected {i : Instr} {s : State} (w : HostWord) (h : rejectedAtTake i s = true) :
    takeLegal i w s = takeRejected w s := by simp [takeLegal, h]

theorem takeLegal_run {i : Instr} {s : State} (w : HostWord) (h : rejectedAtTake i s = false) :
    takeLegal i w s = takeWord w s := by simp [takeLegal, h]

@[simp] theorem takeLegal_conn (i : Instr) (w : HostWord) (s : State) : (takeLegal i w s).conn = s.conn := by
  unfold takeLegal; split <;> simp

/-- A command taken from the host port, if it answers a next state: one rule for each command. -/
theorem takenCommand_cases {w : HostWord} {i : Instr} {s t : State} (hd : decodeHostWord w = .ok i)
    (h : exec i s = .next t) :
    (i = .connect (hostOpnd w) ∧ hostOp w = 0x0#4 ∧
      ((s.conn = true ∧ t = raise .alreadyConnected s) ∨
        (s.conn = false ∧ t = issue (.openStream (hostOpnd w)) { s with phase := .cOpen }))) ∨
    (i = .disconnect ∧ hostOp w = 0x1#4 ∧
      ((s.conn = true ∧ t = disableStep { s with disableFail := 0#6, idx := 1#3 }) ∨
        (s.conn = false ∧ t = complete .ok s))) ∨
    (i = .isConn ∧ hostOp w = 0x2#4 ∧ t = complete .ok { s with resultBool := s.isConnected }) ∨
    (i = .readPos (hostId w) ∧ hostOp w = 0x3#4 ∧
      ((s.conn = true ∧ t = startRead (hostId w) s) ∨ (s.conn = false ∧ t = raise .notConnected s))) ∨
    (i = .readAll ∧ hostOp w = 0x4#4 ∧
      ((s.conn = true ∧ t = startRead 1#8 { s with idx := 1#3 }) ∨ (s.conn = false ∧ t = raise .notConnected s))) ∨
    (i = .writePos (hostId w) (hostOpnd w) ∧ hostOp w = 0x5#4 ∧
      ((s.conn = true ∧ t = issuePacket (encWritePosition (hostId w) (clamp (requestedPos (hostOpnd w))).toNat) .wWrite
          { s with posc := clamp (requestedPos (hostOpnd w)) }) ∨
        (s.conn = false ∧ t = raise .notConnected s))) := by
  rcases decodeHostWord_ok hd with ⟨ho, rfl⟩ | ⟨ho, rfl⟩ | ⟨ho, rfl⟩ | ⟨ho, rfl⟩ | ⟨ho, rfl⟩ | ⟨ho, rfl⟩
  · rcases execConnect_cases (hostOpnd w) s with ⟨hc, he⟩ | ⟨hc, he⟩ <;> cases he.symm.trans h
    · exact .inl ⟨rfl, ho, .inl ⟨hc, rfl⟩⟩
    · exact .inl ⟨rfl, ho, .inr ⟨hc, rfl⟩⟩
  · rcases execDisconnect_cases s with ⟨hc, he⟩ | ⟨hc, he⟩ <;> cases he.symm.trans h
    · exact .inr (.inl ⟨rfl, ho, .inl ⟨hc, rfl⟩⟩)
    · exact .inr (.inl ⟨rfl, ho, .inr ⟨hc, rfl⟩⟩)
  · cases h; exact .inr (.inr (.inl ⟨rfl, ho, rfl⟩))
  · rcases execReadPos_cases (hostId w) s with ⟨hc, he⟩ | ⟨hc, he⟩ <;> cases he.symm.trans h
    · exact .inr (.inr (.inr (.inl ⟨rfl, ho, .inl ⟨hc, rfl⟩⟩)))
    · exact .inr (.inr (.inr (.inl ⟨rfl, ho, .inr ⟨hc, rfl⟩⟩)))
  · rcases execReadAll_cases s with ⟨hc, he⟩ | ⟨hc, he⟩ <;> cases he.symm.trans h
    · exact .inr (.inr (.inr (.inr (.inl ⟨rfl, ho, .inl ⟨hc, rfl⟩⟩))))
    · exact .inr (.inr (.inr (.inr (.inl ⟨rfl, ho, .inr ⟨hc, rfl⟩⟩))))
  · rcases execWritePos_cases (hostId w) (hostOpnd w) s with ⟨hc, he⟩ | ⟨hc, he⟩ <;> cases he.symm.trans h
    · exact .inr (.inr (.inr (.inr (.inr ⟨rfl, ho, .inl ⟨hc, rfl⟩⟩))))
    · exact .inr (.inr (.inr (.inr (.inr ⟨rfl, ho, .inr ⟨hc, rfl⟩⟩))))

end Sys2Proof.Machine
end

