-- ==== Sys2Proof/Laws/Moves.lean ====
section
/-! SUPPORT. Every move of the orchestrator, one constructor each, with the state it leads to written over the shared
operations; and that a step without reset is one of them. The whole-machine rules split by this. -/

namespace Sys2Proof.Machine

/-- The orchestrator's moves from `s` under the pin record `p`. -/
inductive Move (p : PortIn) (s t : State) : Prop
  /-- Nothing but a tick. -/
  | quiet (ha : p.answer = none) (he : t = countTick p.tick s)
  /-- CONNECT taken while Connected (R141). -/
  | connectAgain (w : HostWord) (ha : p.answer = none) (hp : s.phase = .idle) (hw : p.cmd = some w)
      (hd : decodeHostWord w = .ok (.connect (hostOpnd w))) (hc : s.conn = true)
      (he : t = raise .alreadyConnected (takeRejected w s))
  /-- CONNECT taken while Disconnected (R141). -/
  | connect (w : HostWord) (ha : p.answer = none) (hp : s.phase = .idle) (hw : p.cmd = some w)
      (hd : decodeHostWord w = .ok (.connect (hostOpnd w))) (hc : s.conn = false)
      (he : t = issue (.openStream (hostOpnd w)) { takeWord w s with phase := .cOpen })
  /-- DISCONNECT taken while Connected (R142). -/
  | disconnect (w : HostWord) (ha : p.answer = none) (hp : s.phase = .idle) (hw : p.cmd = some w)
      (hd : decodeHostWord w = .ok .disconnect) (hc : s.conn = true)
      (he : t = disableStep { takeWord w s with disableFail := 0#6, idx := 1#3 })
  /-- DISCONNECT taken while Disconnected (R142). -/
  | disconnectNoOp (w : HostWord) (ha : p.answer = none) (hp : s.phase = .idle) (hw : p.cmd = some w)
      (hd : decodeHostWord w = .ok .disconnect) (hc : s.conn = false) (he : t = complete .ok (takeWord w s))
  /-- ISCONN (R143). -/
  | isConn (w : HostWord) (ha : p.answer = none) (hp : s.phase = .idle) (hw : p.cmd = some w)
      (hd : decodeHostWord w = .ok .isConn)
      (he : t = complete .ok { takeWord w s with resultBool := s.isConnected })
  /-- READPOS taken while Connected (R170). -/
  | readPos (w : HostWord) (ha : p.answer = none) (hp : s.phase = .idle) (hw : p.cmd = some w)
      (hd : decodeHostWord w = .ok (.readPos (hostId w))) (hc : s.conn = true)
      (he : t = startRead (hostId w) (takeWord w s))
  /-- READALL taken while Connected (R176). -/
  | readAll (w : HostWord) (ha : p.answer = none) (hp : s.phase = .idle) (hw : p.cmd = some w)
      (hd : decodeHostWord w = .ok .readAll) (hc : s.conn = true)
      (he : t = startRead 1#8 { takeWord w s with idx := 1#3 })
  /-- WRITEPOS taken while Connected (R175). -/
  | writePos (w : HostWord) (ha : p.answer = none) (hp : s.phase = .idle) (hw : p.cmd = some w)
      (hd : decodeHostWord w = .ok (.writePos (hostId w) (hostOpnd w))) (hc : s.conn = true)
      (he : t = issuePacket (encWritePosition (hostId w) (clamp (requestedPos (hostOpnd w))).toNat) .wWrite
        { takeWord w s with posc := clamp (requestedPos (hostOpnd w)) })
  /-- A bus command taken while Disconnected (R144). -/
  | notConnected (w : HostWord) (ha : p.answer = none) (hp : s.phase = .idle) (hw : p.cmd = some w)
      (hc : s.conn = false) (he : t = raise .notConnected (takeRejected w s))
  /-- An illegal word (R93). -/
  | illegal (w : HostWord) (e : DecodeError) (ha : p.answer = none) (hp : s.phase = .idle) (hw : p.cmd = some w)
      (hd : decodeHostWord w = .rejected e) (he : t = rejectIllegal w s)
  /-- The deadline of a read (R171). -/
  | readExpired (hx : expires p.tick s = true) (hp : s.phase = .rWait) (he : t = readExpired (countTick p.tick s))
  /-- The end of a sweep gap before motor 6 (R176). -/
  | sweepNext (hx : expires p.tick s = true) (hp : s.phase = .sGap) (hi : s.idx < 6#3)
      (he : t = startRead ((s.idx + 1#3).setWidth 8)
        { record .expire (countTick p.tick s) with idx := s.idx + 1#3 })
  /-- The end of the last sweep gap (R176). -/
  | sweepEnd (hx : expires p.tick s = true) (hp : s.phase = .sGap) (hi : ¬ s.idx < 6#3)
      (he : t = complete .ok (record .expire (countTick p.tick s)))
  /-- The end of a disable gap before motor 6 (R142). -/
  | disableNext (hx : expires p.tick s = true) (hp : s.phase = .dGap) (hi : s.idx < 6#3)
      (he : t = disableStep { record .expire (countTick p.tick s) with idx := s.idx + 1#3 })
  /-- The end of the last disable gap (R142). -/
  | disableEnd (hx : expires p.tick s = true) (hp : s.phase = .dGap) (hi : ¬ s.idx < 6#3)
      (he : t = issue .closeStream { releaseWrite (record .expire (countTick p.tick s)) with phase := .dClose })
  /-- OpenOk (R141). -/
  | opened (ha : p.answer = some .openOk) (hp : s.phase = .cOpen) (he : t = connectOpened (takeOutcome .openOk s))
  /-- OpenErr (R141). -/
  | openFailed (ha : p.answer = some .openErr) (hp : s.phase = .cOpen)
      (he : t = connectRefused (takeOutcome .openErr s))
  /-- WriteOk of a read request (R171). -/
  | readWritten (ha : p.answer = some .writeOk) (hp : s.phase = .rWrite)
      (he : t = readRequestWritten (takeOutcome .writeOk s))
  /-- WriteErr of a read request (R171). -/
  | readWriteFailed (ha : p.answer = some .writeErr) (hp : s.phase = .rWrite)
      (he : t = finishRead none (takeOutcome .writeErr s))
  /-- A chunk (R171). -/
  | chunk (bs : List Byte) (ha : p.answer = some (.readData bs)) (hp : s.phase = .rWait)
      (hf : (Answer.readData bs).fits s.req = true)
      (he : t = finishRead (decodePositionResponse (some bs))
        { takeOutcome (.readData bs) (countTick p.tick s) with rxbuf := [] })
  /-- No more data, or an error of the read (R171). -/
  | readEnded (a : Answer) (ha : p.answer = some a) (hk : a = .readEnd ∨ a = .readErr) (hp : s.phase = .rWait)
      (he : t = finishRead none (takeOutcome a (countTick p.tick s)))
  /-- The outcome of a position write (R175). -/
  | writeAnswered (a : Answer) (ha : p.answer = some a) (hk : a = .writeOk ∨ a = .writeErr) (hp : s.phase = .wWrite)
      (he : t = writePosAnswered (decide (a = .writeOk)) (takeOutcome a s))
  /-- WriteOk of a torque-disable (R142). -/
  | disableWritten (ha : p.answer = some .writeOk) (hp : s.phase = .dWrite)
      (he : t = beginDisableGap (takeOutcome .writeOk s))
  /-- WriteErr of a torque-disable (R142). -/
  | disableFailed (ha : p.answer = some .writeErr) (hp : s.phase = .dWrite)
      (he : t = disableWriteFailed (takeOutcome .writeErr s))
  /-- The outcome of the close (R142). -/
  | closed (a : Answer) (ha : p.answer = some a) (hk : a = .closeOk ∨ a = .closeErr) (hp : s.phase = .dClose)
      (he : t = closeAnswered (if a = .closeOk then .ok else .closeFailed) (takeOutcome a s))

/-- The expiry of a timed phase is one of five moves. -/
theorem takeExpiry_move {p : PortIn} {s t : State} (hx : expires p.tick s = true)
    (h : t = takeExpiry (countTick p.tick s)) : Move p s t := by
  obtain ⟨-, ht, -⟩ := (expires_iff p.tick s).1 hx
  cases hp : s.phase <;> simp [hp, Phase.timed] at ht <;> simp only [takeExpiry, countTick_fields, hp] at h
  · exact .readExpired hx hp h
  · simp only [sweepGapExpired, record_fields, countTick_fields] at h
    split_ifs at h with hi
    · exact .sweepNext hx hp hi (by simpa using h)
    · exact .sweepEnd hx hp hi h
  · simp only [disableGapExpired, record_fields, countTick_fields] at h
    split_ifs at h with hi
    · exact .disableNext hx hp hi (by simpa using h)
    · exact .disableEnd hx hp hi h

/-- An outcome taken is one of ten moves. -/
theorem takeAnswer_move {p : PortIn} {s t : State} {a : Answer} (ha : p.answer = some a) (hf : a.fits s.req = true)
    (h : takeAnswer a (countTick p.tick s) = .next t) : Move p s t := by
  have hu : s.phase.timed = false → countTick p.tick s = s := fun h => countTick_untimed _ h
  have hc := takeAnswer_cases h
  simp only [countTick_fields] at hc
  rcases hc with ⟨hp, rfl, he⟩ | ⟨hp, rfl, he⟩ | ⟨hp, rfl, he⟩ | ⟨hp, rfl, he⟩ | ⟨hp, bs, rfl, he⟩ | ⟨hp, hk, he⟩ |
    ⟨hp, hk, he⟩ | ⟨hp, rfl, he⟩ | ⟨hp, rfl, he⟩ | ⟨hp, hk, he⟩
  · exact .opened ha hp (by rwa [hu (by rw [hp]; rfl)] at he)
  · exact .openFailed ha hp (by rwa [hu (by rw [hp]; rfl)] at he)
  · exact .readWritten ha hp (by rwa [hu (by rw [hp]; rfl)] at he)
  · exact .readWriteFailed ha hp (by rwa [hu (by rw [hp]; rfl)] at he)
  · exact .chunk bs ha hp hf he
  · exact .readEnded a ha hk hp he
  · exact .writeAnswered a ha hk hp (by rwa [hu (by rw [hp]; rfl)] at he)
  · exact .disableWritten ha hp (by rwa [hu (by rw [hp]; rfl)] at he)
  · exact .disableFailed ha hp (by rwa [hu (by rw [hp]; rfl)] at he)
  · exact .closed a ha hk hp (by rwa [hu (by rw [hp]; rfl)] at he)

/-- Everything the orchestrator can do, if it answers a next state, is one of the moves. -/
theorem orchestrate_move {p : PortIn} {s t : State} (h : orchestrate p s = .next t) : Move p s t := by
  rcases orchestrate_cases h with ⟨ha, -, -, he⟩ | ⟨ha, hp, w, i, hw, hd, hx⟩ | ⟨ha, hp, w, e, hw, hd, he⟩ |
    ⟨hx, -, he⟩ | ⟨a, ha, hf, -, ht⟩
  · exact .quiet ha he
  · rcases takenCommand_cases hd hx with ⟨rfl, -, h⟩ | ⟨rfl, -, h⟩ | ⟨rfl, -, h⟩ | ⟨rfl, -, h⟩ | ⟨rfl, -, h⟩ |
      ⟨rfl, -, h⟩
    · rcases h with ⟨hc, rfl⟩ | ⟨hc, rfl⟩ <;> rw [takeLegal_conn] at hc
      · exact .connectAgain w ha hp hw hd hc (by rw [takeLegal_rejected w (by simp [rejectedAtTake, hc])])
      · exact .connect w ha hp hw hd hc (by rw [takeLegal_run w (by simp [rejectedAtTake, hc])])
    · rw [takeLegal_run w rfl] at h
      rcases h with ⟨hc, rfl⟩ | ⟨hc, rfl⟩
      · exact .disconnect w ha hp hw hd hc rfl
      · exact .disconnectNoOp w ha hp hw hd hc rfl
    · rw [takeLegal_run w rfl] at h
      exact .isConn w ha hp hw hd h
    · rcases h with ⟨hc, rfl⟩ | ⟨hc, rfl⟩ <;> rw [takeLegal_conn] at hc
      · exact .readPos w ha hp hw hd hc (by rw [takeLegal_run w (by simp [rejectedAtTake, hc])])
      · exact .notConnected w ha hp hw hc (by rw [takeLegal_rejected w (by simp [rejectedAtTake, hc])])
    · rcases h with ⟨hc, rfl⟩ | ⟨hc, rfl⟩ <;> rw [takeLegal_conn] at hc
      · exact .readAll w ha hp hw hd hc (by rw [takeLegal_run w (by simp [rejectedAtTake, hc])])
      · exact .notConnected w ha hp hw hc (by rw [takeLegal_rejected w (by simp [rejectedAtTake, hc])])
    · rcases h with ⟨hc, rfl⟩ | ⟨hc, rfl⟩ <;> rw [takeLegal_conn] at hc
      · exact .writePos w ha hp hw hd hc (by rw [takeLegal_run w (by simp [rejectedAtTake, hc])])
      · exact .notConnected w ha hp hw hc (by rw [takeLegal_rejected w (by simp [rejectedAtTake, hc])])
  · exact .illegal w e ha hp hw hd he
  · exact takeExpiry_move hx he
  · exact takeAnswer_move ha hf ht

/-- A step without reset is a move from the sampled state. -/
theorem step_move {s t : State} {p : PortIn} {rest : List PortIn} (hi : s.inputs = p :: rest) (hr : p.reset = false)
    (h : step s = .next t) : Move p (s.after p rest) t := by
  rw [step_pins hi hr] at h
  exact orchestrate_move h

end Sys2Proof.Machine
end

