-- ==== Sys2Proof/Laws/PerInstr.lean ====
section
/-! SUPPORT. Statements made instruction by instruction. The family TableRow: the bytes of a well-formed instruction's
code agree with the match and mask that spec/opcode_table.json gives its row. -/

namespace Sys2Proof.Machine

theorem append_toNat_add {m n : Nat} (x : BitVec m) (y : BitVec n) : (x ++ y).toNat = x.toNat * 2 ^ n + y.toNat := by
  rw [BitVec.toNat_append, ← Nat.shiftLeft_add_eq_or_of_lt y.isLt, Nat.shiftLeft_eq]

/-- An assembled host word as a number (R89). -/
theorem hostWordOf_toNat (op : BitVec 4) (id : Byte) (opnd : BitVec 32) :
    (hostWordOf op id opnd).toNat = opnd.toNat * 2 ^ 32 + id.toNat * 2 ^ 8 + op.toNat := by
  simp only [hostWordOf, append_toNat_add, BitVec.toNat_ofNat]
  omega

/-- The bytes of an assembled host word, the most significant first (R89). -/
theorem hostWordOf_bytes (op : BitVec 4) (id : Byte) (opnd : BitVec 32) :
    bytesOf 8 (hostWordOf op id opnd).toNat =
      [opnd.extractLsb' 24 8, opnd.extractLsb' 16 8, opnd.extractLsb' 8 8, opnd.extractLsb' 0 8, 0x00#8, 0x00#8, id,
        0#4 ++ op] := by
  have ho := op.isLt
  have hd := id.isLt
  have hp := opnd.isLt
  simp only [bytesOf, List.cons.injEq, and_true, hostWordOf_toNat, Nat.shiftRight_eq_div_pow]
  refine ⟨?_, ?_, ?_, ?_, ?_, ?_, ?_, ?_⟩ <;> apply BitVec.eq_of_toNat_eq <;>
    simp only [append_toNat_add, BitVec.extractLsb'_toNat, BitVec.toNat_ofNat, Nat.shiftRight_eq_div_pow] <;> omega

/-- The high byte of a position has none of the bits the row REQ_WRITE_POS masks (R85). -/
theorem posHigh_mask (c : BitVec 12) : posHigh c &&& 0xF0#8 = 0#8 := by
  have h := posHigh_le c
  revert h
  generalize posHigh c = x
  revert x
  decide

end Sys2Proof.Machine

namespace Sys2Proof.Laws.TableRow

open Sys2Proof Sys2Proof.Machine

/-- The code of a well-formed instruction agrees with its row of spec/opcode_table.json. -/
def Statement (i : Instr) : Prop := i.wf = true → i.row.agrees (encode i).bytes = true

theorem connect (baud : BitVec 32) : Statement (.connect baud) := by
  intro _
  simp only [encode, Code.bytes, hostWordOf_bytes, Row.agrees, Instr.row]
  simp [bytesOf, opConnect]

theorem disconnect : Statement .disconnect := by
  intro _
  simp only [encode, Code.bytes, hostWordOf_bytes, Row.agrees, Instr.row]
  simp [bytesOf, opDisconnect]

theorem isConn : Statement .isConn := by
  intro _
  simp only [encode, Code.bytes, hostWordOf_bytes, Row.agrees, Instr.row]
  simp [bytesOf, opIsConn]

theorem readPos (id : Byte) : Statement (.readPos id) := by
  intro _
  simp only [encode, Code.bytes, hostWordOf_bytes, Row.agrees, Instr.row]
  simp [bytesOf, opReadPos]

theorem readAll : Statement .readAll := by
  intro _
  simp only [encode, Code.bytes, hostWordOf_bytes, Row.agrees, Instr.row]
  simp [bytesOf, opReadAll]

theorem writePos (id : Byte) (opnd : BitVec 32) : Statement (.writePos id opnd) := by
  intro _
  simp only [encode, Code.bytes, hostWordOf_bytes, Row.agrees, Instr.row]
  simp [bytesOf, opWritePos]

theorem reqReadPos (id : Byte) : Statement (.reqReadPos id) := by
  intro _
  simp [encode, Code.bytes, encReadPosition, frame, Row.agrees, Instr.row, bytesOf, Config.sync, Config.instrRead,
    Config.addrPresentPosition]

theorem reqWritePos (id : Byte) (pos : BitVec 16) : Statement (.reqWritePos id pos) := by
  intro _
  simp [encode, Code.bytes, encWritePosition, frame, Row.agrees, Instr.row, bytesOf, Config.sync, Config.instrWrite,
    Config.addrTargetPosition, posHigh_mask]

theorem reqWriteTorque (id : Byte) (enabled : Bool) : Statement (.reqWriteTorque id enabled) := by
  intro _
  cases enabled <;> simp [encode, Code.bytes, encWriteTorqueEnable, frame, Row.agrees, Instr.row, bytesOf,
    Config.sync, Config.instrWrite, Config.addrTorqueEnable]

theorem respPos (chunk : List Byte) : Statement (.respPos chunk) := by
  intro h
  simp only [Instr.wf, Config.respMinLen] at h
  match chunk, h with
  | _ :: _ :: _ :: _ :: _ :: _ :: _ :: _ :: _, _ => simp [encode, Code.bytes, Row.agrees, Instr.row, bytesOf]

end Sys2Proof.Laws.TableRow
end

