-- ==== Sys2Proof/Laws/Run.lean ====
section
/-! SUPPORT. Runs of many steps: how they are put together, and what a row of ticks does to a timed phase. -/

namespace Sys2Proof.Machine

/-- A step, then a run. -/
theorem run_cons {n : Nat} {s t : State} (h : step s = .next t) :
    Host.Core.run Sys2Proof.core (n + 1) s = Host.Core.run Sys2Proof.core n t := by
  have h : Sys2Proof.core.step s = .next t := h
  simp only [Host.Core.run, h]

/-- A run, then a run. -/
theorem run_append (n m : Nat) {s t : State} (h : Host.Core.run Sys2Proof.core n s = .next t) :
    Host.Core.run Sys2Proof.core (n + m) s = Host.Core.run Sys2Proof.core m t := by
  induction n generalizing s with
  | zero => cases h; rw [Nat.zero_add]
  | succ n ih =>
    rw [show n + 1 + m = (n + m) + 1 by omega]
    simp only [Host.Core.run] at h ⊢
    split at h
    · exact ih h
    · cases h
    · cases h

/-- A tick that is not the last counts the timer down and does nothing else (R217). -/
theorem step_tick {s : State} {rest : List PortIn} (ht : s.phase.timed = true) (hm : 1 < s.timer.toNat)
    (hi : s.inputs = { tick := true } :: rest) :
    step s = .next { s.after { tick := true } rest with timer := s.timer - 1#16 } := by
  rw [step_pins hi rfl, orchestrate_quiet rfl ?_ (.inr rfl), countTick_timed (by simpa using ht)]
  · have h0 : s.timer ≠ 0#16 := by intro h; simp [h] at hm
    simp [countDown, State.after, h0]
  · have h := expires_iff true (s.after { tick := true } rest)
    simp only [after_fields] at h
    by_contra hc
    have := h.1 (by simpa using hc)
    omega

/-- `N` ticks end a timed phase whose timer is `N` (R217), here with the level pins at their defaults. -/
theorem run_ticks (n : Nat) : ∀ (s : State) (rest : List PortIn), s.phase.timed = true → s.timer.toNat = n + 1 →
    s.inputs = tickPins (n + 1) ++ rest → Host.Core.run Sys2Proof.core (n + 1) s =
      .next (takeExpiry { s with timer := 0#16, inputs := rest, rxUsable := false, regSel := 0#8 }) := by
  induction n with
  | zero =>
    intro s rest ht hm hi
    exact run_cons (step_expiry (p := { tick := true })
      ⟨hi, rfl, rfl, rfl, BitVec.eq_of_toNat_eq (by simpa using hm)⟩ ht)
  | succ n ih =>
    intro s rest ht hm hi
    rw [run_cons (step_tick ht (by omega) hi)]
    exact ih _ _ ht (by show (s.timer - 1#16).toNat = n + 1; bv_omega) rfl

end Sys2Proof.Machine
end

