-- ==== Sys2Proof/Tests/Slice0.lean ====
section
/-! SUPPORT. Tests: ill-formed terms that the checks refuse, words and packets written out from the spec that decode to
what they stand for, single steps with the results of spec/95_test_vectors.md, and for every statement with hypotheses a
witness that meets them. The expected values are the spec's (the section is named); none is the model's own answer. -/

namespace Sys2Proof.Tests

open Sys2Proof Sys2Proof.Machine

/-! ### Helpers -/

/-- The Connected, idle block (95_test_vectors.md 2.7: STATUS 0x0B0). -/
def idleConn : State := { State.reset with conn := true, wrHeld := true, rxUsable := true }

/-- A state in a phase, with an outstanding request and one pin record to come. -/
def inPhase (ph : Phase) (op : BitVec 4) (r : Option Request) (p : PortIn) : State :=
  { idleConn with phase := ph, cmdOp := op, req := r, inputs := [p] }

/-- The state one step after, if there is one. -/
def after1 (s : State) : Option State :=
  match step s with
  | .next t => some t
  | .fault _ => none
  | .refused _ => none

/-- One step that offers a word, with RX_USABLE = 1 as 95_test_vectors.md has it. -/
def take (s : State) (w : HostWord) : Option State :=
  after1 { s with inputs := [{ cmd := some w, rxUsable := true }] }

/-- One step that delivers an outcome, with RX_USABLE = 1. -/
def deliver (s : State) (a : Answer) : Option State :=
  after1 { s with inputs := [{ answer := some a, rxUsable := true }] }

/-- STATUS and the trace. -/
def seen (s : Option State) : Option (BitVec 16 × List Event) := s.map fun t => (t.status, t.trace)

/-- The bytes of a response of the spec: FF FF id 04 00 low high ck. -/
def reply (id low high ck : Byte) : List Byte := [0xFF#8, 0xFF#8, id, 0x04#8, 0x00#8, low, high, ck]

/-! ### Well-formedness: an ill-formed term for each check -/

theorem test_wf_pos_4096 : Instr.wf (.reqWritePos 1#8 4096#16) = false := by decide
theorem test_wf_pos_4095 : Instr.wf (.reqWritePos 1#8 4095#16) = true := by decide
theorem test_wf_chunk_7 : Instr.wf (.respPos (List.replicate 7 0#8)) = false := by decide
theorem test_wf_chunk_8 : Instr.wf (.respPos (List.replicate 8 0#8)) = true := by decide
theorem test_wf_line_baud : Line.wf (.connect (-1)) = false ∧ Line.wf (.connect (2 ^ 32)) = false := by decide
theorem test_wf_line_readPos : Line.wf (.readPos (-1)) = false ∧ Line.wf (.readPos 256) = false := by decide
theorem test_wf_line_writeId : Line.wf (.writePos (-1) 0) = false ∧ Line.wf (.writePos 256 0) = false := by decide
theorem test_wf_line_writePos :
    Line.wf (.writePos 1 (2 ^ 31)) = false ∧ Line.wf (.writePos 1 (-(2 ^ 31) - 1)) = false := by decide
theorem test_wf_line_ends :
    Line.wf (.connect (2 ^ 32 - 1)) = true ∧ Line.wf (.writePos 255 (-(2 ^ 31))) = true := by decide

/-! ### Decoding: words of 95_test_vectors.md 2.6, packets of 2.2 to 2.5 -/

theorem test_decode_connect : decodeHostWord 0x000F424000000700#64 = .ok (.connect 1000000#32) := by decide
theorem test_decode_disconnect : decodeHostWord 0x0000000000000001#64 = .ok .disconnect := by decide
theorem test_decode_isConn : decodeHostWord 0x0000000000000002#64 = .ok .isConn := by decide
theorem test_decode_readPos : decodeHostWord 0x000000630000FF03#64 = .ok (.readPos 255#8) := by decide
theorem test_decode_readAll : decodeHostWord 0x0000000000000004#64 = .ok .readAll := by decide
theorem test_decode_writePos : decodeHostWord 0xFFFFFFF600000205#64 = .ok (.writePos 2#8 0xFFFFFFF6#32) := by decide
theorem test_decode_reserved_op :
    decodeHostWord 0x6#64 = .rejected .reservedOp ∧ decodeHostWord 0xF#64 = .rejected .reservedOp := by decide
theorem test_decode_reserved_bits :
    decodeHostWord 0x13#64 = .rejected .rsv0Nonzero ∧ decodeHostWord 0x10003#64 = .rejected .rsv1Nonzero := by decide
theorem test_decode_reqReadPos :
    decodeRequest [0xFF#8, 0xFF#8, 0xC0#8, 0x04#8, 0x02#8, 0x38#8, 0x02#8, 0xFF#8] = .ok (.reqReadPos 0xC0#8) := by decide
theorem test_decode_reqWritePos :
    decodeRequest [0xFF#8, 0xFF#8, 0x06#8, 0x05#8, 0x03#8, 0x2A#8, 0xE8#8, 0x03#8, 0xDC#8] =
      .ok (.reqWritePos 6#8 1000#16) := by decide
theorem test_decode_reqWriteTorque :
    decodeRequest [0xFF#8, 0xFF#8, 0xFC#8, 0x04#8, 0x03#8, 0x28#8, 0x01#8, 0xD3#8] =
      .ok (.reqWriteTorque 252#8 true) := by decide
theorem test_decode_bad_checksum :
    decodeRequest [0xFF#8, 0xFF#8, 0x01#8, 0x04#8, 0x02#8, 0x38#8, 0x02#8, 0xC8#8] = .rejected .badChecksum := by decide
theorem test_decode_no_shape :
    decodeRequest [0xFF#8, 0xFF#8, 0x01#8, 0x05#8, 0x03#8, 0x2A#8, 0x00#8, 0x10#8, 0xBC#8] = .rejected .notARequest := by
  decide
theorem test_decode_respPos :
    decodeResponse (reply 3#8 0xD2#8 0x04#8 0x22#8) = .ok (.respPos (reply 3#8 0xD2#8 0x04#8 0x22#8)) := by decide
theorem test_decode_short : decodeResponse (List.replicate 7 0xFF#8) = .rejected .shortChunk := by decide

/-- 2.5: the value is bytes 6 and 5, not limited to 4095; extra bytes are ignored. -/
theorem test_parser :
    decodePositionResponse (some (reply 3#8 0xD2#8 0x04#8 0x22#8 ++ [1#8, 2#8, 3#8])) = some 1234#16 ∧
    decodePositionResponse (some (List.replicate 8 0xFF#8)) = some 65535#16 := by decide

/-- 2.1: a sum of 0x123 gives DC, one of 0xFF gives 00, the empty body FF. -/
theorem test_checksum :
    checksum [0x06#8, 0x05#8, 0x03#8, 0x2A#8, 0xE8#8, 0x03#8] = 0xDC#8 ∧
    checksum [0xBF#8, 0x04#8, 0x02#8, 0x38#8, 0x02#8] = 0x00#8 ∧ checksum [] = 0xFF#8 := by decide

/-- 2.6: a program's text, with a comment, an empty line and hex; an identity of 256 does not assemble. -/
theorem test_assembler :
    assembleProgram ["WRITEPOS 2, -10 ; clamped".toList, [], "CONNECT 0xFFFFFFFF".toList] =
      some [0xFFFFFFF600000205#64, 0xFFFFFFFF00000000#64] ∧
    assembleProgram ["READPOS 256".toList] = none := by decide

/-! ### The host's reading of a table word, and where it is run -/

theorem test_tableWord_host : decodeTableWord 64 0x0000080000000105 = some (.writePos 1#8 2048#32) := by decide
theorem test_tableWord_read : decodeTableWord 64 0xFFFF010402380200 = some (.reqReadPos 1#8) := by decide
theorem test_tableWord_write : decodeTableWord 72 0xFFFF0105032AFF0F00 = some (.reqWritePos 1#8 4095#16) := by decide
theorem test_tableWord_torque : decodeTableWord 64 0xFFFF040403280000 = some (.reqWriteTorque 4#8 false) := by decide
theorem test_tableWord_response :
    decodeTableWord 64 0xFFFF0104000008F2 = some (.respPos (reply 1#8 0x00#8 0x08#8 0xF2#8)) := by decide

/-- The very next step issues the read request of motor 1 (2.2). -/
theorem test_fetch_reqReadPos :
    (after1 (State.reset.withFetchWord 64 0xFFFF010402380200)).map (·.req) =
      some (some (.write [0xFF#8, 0xFF#8, 0x01#8, 0x04#8, 0x02#8, 0x38#8, 0x02#8, 0xBE#8])) := by decide
/-- The very next step issues the write request of motor 1 (2.3). -/
theorem test_fetch_reqWritePos :
    (after1 (State.reset.withFetchWord 72 0xFFFF0105032A000800)).map (·.req) =
      some (some (.write [0xFF#8, 0xFF#8, 0x01#8, 0x05#8, 0x03#8, 0x2A#8, 0x00#8, 0x08#8, 0xC4#8])) := by decide
/-- The very next step issues the torque request of motor 4 (2.4). -/
theorem test_fetch_reqWriteTorque :
    (after1 (State.reset.withFetchWord 64 0xFFFF040403280000)).map (·.req) =
      some (some (.write [0xFF#8, 0xFF#8, 0x04#8, 0x04#8, 0x03#8, 0x28#8, 0x00#8, 0xCC#8])) := by decide
/-- The very next step takes the response (2.8). -/
theorem test_fetch_respPos :
    (after1 (State.reset.withFetchWord 64 0xFFFF0104000008F2)).map (·.resultPos) = some 0x10800#17 := by decide
/-- The very next step takes the command (2.7). -/
theorem test_fetch_connect :
    seen (after1 (State.reset.withFetchWord 64 0x000F424000000000)) =
      some (0x040#16, [.cmd 0x000F424000000000#64, .request (.openStream 1000000#32)]) := by decide

/-! ### Single steps: 95_test_vectors.md 2.7 and 2.8 -/

theorem test_connect_disconnected :
    seen (take State.reset 0x000F424000000000#64) =
      some (0x040#16, [.cmd 0x000F424000000000#64, .request (.openStream 1000000#32)]) := by decide
theorem test_connect_connected :
    seen (take idleConn 0x000F424000000000#64) =
      some (0x0B4#16, [.cmd 0x000F424000000000#64, .done .alreadyConnected]) := by decide
theorem test_connect_opened :
    seen (deliver { State.reset with phase := .cOpen, req := some (.openStream 1000000#32) } .openOk) =
      some (0x0B0#16, [.answer .openOk, .done .ok]) := by decide
theorem test_disconnect_disconnected :
    seen (take State.reset 1#64) = some (0x000#16, [.cmd 1#64, .done .ok]) := by decide
theorem test_disconnect_connected :
    seen (take idleConn 1#64) = some (0x0F0#16, [.cmd 1#64,
      .request (.write [0xFF#8, 0xFF#8, 0x01#8, 0x04#8, 0x03#8, 0x28#8, 0x00#8, 0xCF#8])]) := by decide
theorem test_disconnect_failed_write :
    (deliver { inPhase .dWrite 1#4 (some (.write [])) {} with idx := 4#3 } .writeErr).map
      (fun t => (t.disableFail, t.timer, t.phase)) = some (0b001000#6, 20#16, .dGap) := by decide
theorem test_isConn_usable :
    (take idleConn 2#64).map (fun t => (t.resultBool, t.status)) = some (true, 0x0B0#16) := by decide
theorem test_isConn_unusable :
    (after1 { idleConn with inputs := [{ cmd := some 2#64 }] }).map (fun t => (t.resultBool, t.status)) =
      some (false, 0x090#16) := by decide
theorem test_readPos_connected :
    seen (take idleConn 0x103#64) = some (0x1F0#16, [.cmd 0x103#64, .acqRd,
      .request (.write [0xFF#8, 0xFF#8, 0x01#8, 0x04#8, 0x02#8, 0x38#8, 0x02#8, 0xBE#8])]) := by decide
theorem test_readPos_disconnected :
    seen (take State.reset 0x103#64) = some (0x001#16, [.cmd 0x103#64, .done .notConnected]) := by decide
theorem test_readAll_connected :
    (take { idleConn with sweepValid := 0x3F#6 } 4#64).map (fun t => (t.idx, t.sweepValid, t.req)) =
      some (1#3, 0x3F#6, some (.write [0xFF#8, 0xFF#8, 0x01#8, 0x04#8, 0x02#8, 0x38#8, 0x02#8, 0xBE#8])) := by decide
theorem test_readAll_chunk :
    (deliver { inPhase .rWait 4#4 (some (.read 16)) {} with idx := 3#3 }
      (.readData (reply 3#8 0xD2#8 0x04#8 0x22#8))).map
        (fun t => (t.sweepValid, t.sweepPos[2], t.timer)) = some (0b000100#6, 1234#16, 50#16) := by decide
theorem test_writePos_clamps :
    (take idleConn 0xFFFFFFF600000205#64).map (fun t => (t.posc, t.req)) = some (0#12,
      some (.write [0xFF#8, 0xFF#8, 0x02#8, 0x05#8, 0x03#8, 0x2A#8, 0x00#8, 0x00#8, 0xCB#8])) := by decide
theorem test_writePos_failed :
    (deliver { inPhase .wWrite 5#4 (some (.write [])) {} with resultBool := true } .writeErr).map
      (fun t => (t.resultBool, t.status)) = some (false, 0x0B0#16) := by decide
theorem test_respPos_long :
    (deliver (inPhase .rWait 3#4 (some (.read 8)) {}) (.readData (reply 1#8 0x00#8 0x08#8 0xF2#8))).map
      (fun t => (t.resultPos, t.status)) = some (0x10800#17, 0x0B0#16) := by decide
theorem test_respPos_short :
    (deliver { inPhase .rWait 3#4 (some (.read 8)) {} with resultPos := 0x10800#17 }
      (.readData [0xFF#8, 0xFF#8, 0x01#8, 0x04#8, 0x00#8, 0x00#8, 0x08#8])).map
      (fun t => (t.resultPos, t.status)) = some (0x00000#17, 0x0B0#16) := by decide
/-- R40: no received byte is kept beyond the step that takes them, decoded or too short. -/
theorem test_rxbuf_empties : ∀ k ∈ [7, 8],
    (deliver (inPhase .rWait 3#4 (some (.read 8)) {}) (.readData (List.replicate k 0xFF#8))).map (·.rxbuf) =
      some [] := by decide
/-- R206, R209: a rejected command writes LAST_STATUS and no latch (here CONNECT 1, READPOS 1). -/
theorem test_rejected_latch :
    (take { idleConn with cmdOp := 5#4, cmdOpnd := 7#32 } 0x0000000100000000#64).map
      (fun t => (t.cmdOp, t.cmdOpnd, t.lastStatus)) = some (5#4, 7#32, .alreadyConnected) ∧
    (take { State.reset with cmdOp := 1#4, cmdId := 9#8 } 0x103#64).map
      (fun t => (t.cmdOp, t.cmdId, t.lastStatus)) = some (1#4, 9#8, .notConnected) := by decide
/-- R35: a command that runs is latched (here WRITEPOS 2, 9). -/
theorem test_latch :
    (take idleConn 0x0000000900000205#64).map (fun t => (t.cmdOp, t.cmdId, t.cmdOpnd)) =
      some (5#4, 2#8, 9#32) := by decide
/-- T1: the 2000th tick, here the last one, is the deadline. -/
theorem test_deadline :
    (after1 { inPhase .rWait 3#4 (some (.read 8)) { tick := true } with timer := 1#16 }).map
      (fun t => (t.resultPos, t.trace)) = some (0#17, [.expire, .cancel, .relRd, .done .ok]) := by decide
theorem test_illegal :
    seen (take State.reset 0x13#64) = some (0x005#16, [.cmd 0x13#64, .done .illegalCommand]) := by decide

/-! ### Witnesses: a state and operands that meet each statement's hypotheses, clause by clause

The lifecycle states: `State.reset` is Disconnected, `idleConn` Connected. -/

theorem witness_disconnected_and_connected : State.reset.conn = false ∧ idleConn.conn = true := ⟨rfl, rfl⟩

/-- ConnectFollowsItsRule: OpenOk, OpenErr, no outcome. -/
theorem witness_ConnectFollowsItsRule :
    (let s := inPhase .cOpen 0#4 (some (.openStream 9600#32)) (answerPins .openOk);
      s.phase = .cOpen ∧ s.req = some (.openStream 9600#32) ∧ s.answered (answerPins .openOk) [] .openOk) ∧
    (let s := inPhase .cOpen 0#4 (some (.openStream 0#32)) (answerPins .openErr);
      s.phase = .cOpen ∧ s.req = some (.openStream 0#32) ∧ s.answered (answerPins .openErr) [] .openErr) ∧
    (let s := inPhase .cOpen 0#4 none {};
      s.phase = .cOpen ∧ s.inputs = [{}] ∧ PortIn.silent {} = true) :=
  ⟨⟨rfl, rfl, rfl, rfl, rfl⟩, ⟨rfl, rfl, rfl, rfl, rfl⟩, rfl, rfl, rfl⟩

/-- DisconnectFollowsItsRule: the write's outcomes at motors 1 and 6, the gap's end at motors 1, 5 and 6. -/
theorem witness_DisconnectFollowsItsRule_sweep :
    (let s := inPhase .dWrite 1#4 (some (.write [])) (answerPins .writeOk);
      s.phase = .dWrite ∧ s.req = some (.write []) ∧ s.answered (answerPins .writeOk) [] .writeOk) ∧
    (∀ i ∈ [1#3, 6#3],
      let s := { inPhase .dWrite 1#4 (some (.write [])) (answerPins .writeErr) with idx := i };
      s.phase = .dWrite ∧ s.req = some (.write []) ∧ 1#3 ≤ s.idx ∧ s.idx ≤ 6#3 ∧
        s.answered (answerPins .writeErr) [] .writeErr) ∧
    (∀ i ∈ [1#3, 5#3],
      let s := { inPhase .dGap 1#4 none { tick := true } with idx := i, timer := 1#16 };
      s.phase = .dGap ∧ s.idx < 6#3 ∧ s.expiring { tick := true } []) ∧
    (let s := { inPhase .dGap 1#4 none { tick := true } with idx := 6#3, timer := 1#16 };
      s.phase = .dGap ∧ s.idx = 6#3 ∧ s.expiring { tick := true } []) := by
  refine ⟨⟨rfl, rfl, rfl, rfl, rfl⟩, ?_, ?_, ⟨rfl, rfl, rfl, rfl, rfl, rfl, rfl⟩⟩
  · intro i hi
    refine ⟨rfl, rfl, ?_, ?_, rfl, rfl, rfl⟩ <;> revert i <;> decide
  · intro i hi
    refine ⟨rfl, ?_, rfl, rfl, rfl, rfl, rfl⟩
    revert i
    decide

/-- DisconnectFollowsItsRule: the close's outcomes, and no outcome. -/
theorem witness_DisconnectFollowsItsRule_close :
    (let s := inPhase .dClose 1#4 (some .closeStream) (answerPins .closeOk);
      s.phase = .dClose ∧ s.req = some .closeStream ∧ s.answered (answerPins .closeOk) [] .closeOk) ∧
    (let s := inPhase .dClose 1#4 (some .closeStream) (answerPins .closeErr);
      s.phase = .dClose ∧ s.req = some .closeStream ∧ s.answered (answerPins .closeErr) [] .closeErr) ∧
    (let s := inPhase .dClose 1#4 none {};
      (s.phase = .dWrite ∨ s.phase = .dClose) ∧ s.inputs = [{}] ∧ PortIn.silent {} = true) ∧
    (let s := inPhase .dWrite 1#4 none {};
      (s.phase = .dWrite ∨ s.phase = .dClose) ∧ s.inputs = [{}] ∧ PortIn.silent {} = true) :=
  ⟨⟨rfl, rfl, rfl, rfl, rfl⟩, ⟨rfl, rfl, rfl, rfl, rfl⟩, ⟨.inr rfl, rfl, rfl⟩, .inl rfl, rfl, rfl⟩

/-- ReadAllFollowsItsRule: the gap's end at motors 1, 5 and 6. -/
theorem witness_ReadAllFollowsItsRule :
    (∀ i ∈ [1#3, 5#3],
      let s := { inPhase .sGap 4#4 none { tick := true } with idx := i, timer := 1#16 };
      s.phase = .sGap ∧ s.idx < 6#3 ∧ s.expiring { tick := true } []) ∧
    (let s := { inPhase .sGap 4#4 none { tick := true } with idx := 6#3, timer := 1#16 };
      s.phase = .sGap ∧ s.idx = 6#3 ∧ s.expiring { tick := true } []) := by
  refine ⟨?_, rfl, rfl, rfl, rfl, rfl, rfl, rfl⟩
  intro i hi
  refine ⟨rfl, ?_, rfl, rfl, rfl, rfl, rfl⟩
  revert i
  decide

/-- WritePosFollowsItsRule: both outcomes, and none. -/
theorem witness_WritePosFollowsItsRule :
    (let s := inPhase .wWrite 5#4 (some (.write [])) (answerPins .writeOk);
      s.phase = .wWrite ∧ s.req = some (.write []) ∧ s.answered (answerPins .writeOk) [] .writeOk) ∧
    (let s := inPhase .wWrite 5#4 (some (.write [])) (answerPins .writeErr);
      s.phase = .wWrite ∧ s.req = some (.write []) ∧ s.answered (answerPins .writeErr) [] .writeErr) ∧
    (let s := inPhase .wWrite 5#4 none {};
      s.phase = .wWrite ∧ s.inputs = [{}] ∧ PortIn.silent {} = true) :=
  ⟨⟨rfl, rfl, rfl, rfl, rfl⟩, ⟨rfl, rfl, rfl, rfl, rfl⟩, rfl, rfl, rfl⟩

/-- ReadTransactionOfReadPos: the write's outcomes. -/
theorem witness_ReadTransactionOfReadPos_write :
    (let s := inPhase .rWrite 3#4 (some (.write [])) (answerPins .writeOk);
      s.phase = .rWrite ∧ s.req = some (.write []) ∧ s.answered (answerPins .writeOk) [] .writeOk) ∧
    (let s := inPhase .rWrite 3#4 (some (.write [])) (answerPins .writeErr);
      s.phase = .rWrite ∧ s.req = some (.write []) ∧ s.cmdOp = opReadPos ∧
        s.answered (answerPins .writeErr) [] .writeErr) :=
  ⟨⟨rfl, rfl, rfl, rfl, rfl⟩, rfl, rfl, rfl, rfl, rfl, rfl⟩

/-- ReadTransactionOfReadPos: chunks of 1, 7 and 8 bytes, also on the deadline's tick where the environment lets the
outcome win; no more data; an error; the deadline. -/
theorem witness_ReadTransactionOfReadPos_read :
    (∀ k ∈ [1, 7, 8],
      let bs := List.replicate k 0xFF#8
      let s := inPhase .rWait 3#4 (some (.read 8)) (answerPins (.readData bs));
      s.phase = .rWait ∧ s.req = some (.read 8) ∧ s.cmdOp = opReadPos ∧ (1 ≤ bs.length ∧ bs.length ≤ 8) ∧
        s.inTime (answerPins (.readData bs)) ∧ s.answered (answerPins (.readData bs)) [] (.readData bs)) ∧
    (let p : PortIn := { answer := some .readEnd, tick := true, answerWins := true }
      let s := { inPhase .rWait 3#4 (some (.read 8)) p with timer := 1#16 };
      s.phase = .rWait ∧ s.req = some (.read 8) ∧ s.cmdOp = opReadPos ∧ s.inTime p ∧ s.answered p [] .readEnd) ∧
    (let s := inPhase .rWait 3#4 (some (.read 8)) (answerPins .readErr);
      s.phase = .rWait ∧ s.req = some (.read 8) ∧ s.cmdOp = opReadPos ∧ s.inTime (answerPins .readErr) ∧
        s.answered (answerPins .readErr) [] .readErr) ∧
    (let s := { inPhase .rWait 3#4 (some (.read 8)) { tick := true } with timer := 1#16 };
      s.phase = .rWait ∧ s.cmdOp = opReadPos ∧ s.expiring { tick := true } []) := by
  refine ⟨?_, ⟨rfl, rfl, rfl, .inr rfl, rfl, rfl, rfl⟩, ⟨rfl, rfl, rfl, .inl rfl, rfl, rfl, rfl⟩,
    rfl, rfl, rfl, rfl, rfl, rfl, rfl⟩
  intro k hk
  refine ⟨rfl, rfl, rfl, ?_, .inl rfl, rfl, rfl, rfl⟩
  revert k
  decide

/-- ReadTransactionOfReadAll: at motors 1 and 6, chunks of 1, 7 and 8 bytes, the deadline, no more data, a failed
write. -/
theorem witness_ReadTransactionOfReadAll :
    ∀ i ∈ [1#3, 6#3],
      (∀ k ∈ [1, 7, 8],
        let bs := List.replicate k 0xFF#8
        let s := { inPhase .rWait 4#4 (some (.read 8)) (answerPins (.readData bs)) with idx := i };
        s.cmdOp = opReadAll ∧ (1#3 ≤ i ∧ i ≤ 6#3) ∧ s.phase = .rWait ∧ s.req = some (.read 8) ∧
          (1 ≤ bs.length ∧ bs.length ≤ 8) ∧ s.inTime (answerPins (.readData bs)) ∧
          s.answered (answerPins (.readData bs)) [] (.readData bs)) ∧
      (let s := { inPhase .rWait 4#4 (some (.read 8)) { tick := true } with idx := i, timer := 1#16 };
        s.cmdOp = opReadAll ∧ s.phase = .rWait ∧ s.expiring { tick := true } []) ∧
      (let s := { inPhase .rWait 4#4 (some (.read 8)) (answerPins .readEnd) with idx := i };
        s.cmdOp = opReadAll ∧ s.phase = .rWait ∧ s.req = some (.read 8) ∧ s.inTime (answerPins .readEnd) ∧
          s.answered (answerPins .readEnd) [] .readEnd) ∧
      (let s := { inPhase .rWrite 4#4 (some (.write [])) (answerPins .writeErr) with idx := i };
        s.cmdOp = opReadAll ∧ s.phase = .rWrite ∧ s.req = some (.write []) ∧
          s.answered (answerPins .writeErr) [] .writeErr) := by
  intro i hi
  refine ⟨?_, ⟨rfl, rfl, rfl, rfl, rfl, rfl, rfl⟩, ⟨rfl, rfl, rfl, .inl rfl, rfl, rfl, rfl⟩,
    rfl, rfl, rfl, rfl, rfl, rfl⟩
  intro k hk
  refine ⟨rfl, ?_, rfl, rfl, ?_, .inl rfl, rfl, rfl, rfl⟩
  · revert i; decide
  · revert k; decide

/-- ConnectWhileConnectedChangesOnlyItsStatus: CONNECT 1 offered to the Connected block. -/
theorem witness_ConnectWhileConnectedChangesOnlyItsStatus :
    let w := 0x0000000100000000#64
    let s := { idleConn with inputs := [{ cmd := some w }] };
    s.offered { cmd := some w } [] w ∧ decodeHostWord w = .ok (.connect 1#32) ∧ s.conn = true :=
  ⟨⟨rfl, rfl, rfl, rfl, rfl⟩, by decide, rfl⟩

/-- BusCommandsNeedTheHandle: the three commands, Disconnected and offered. -/
theorem witness_BusCommandsNeedTheHandle :
    ∀ x ∈ [(0x103#64, Instr.readPos 1#8), (4#64, .readAll), (0x105#64, .writePos 1#8 0#32)],
      ((∃ id, x.2 = .readPos id) ∨ x.2 = .readAll ∨ (∃ id opnd, x.2 = .writePos id opnd)) ∧
        State.offered { State.reset with inputs := [{ cmd := some x.1 }] } { cmd := some x.1 } [] x.1 ∧
        decodeHostWord x.1 = .ok x.2 := by
  intro x hx
  simp only [List.mem_cons, List.not_mem_nil, or_false] at hx
  rcases hx with rfl | rfl | rfl
  · exact ⟨.inl ⟨_, rfl⟩, ⟨rfl, rfl, rfl, rfl, rfl⟩, by decide⟩
  · exact ⟨.inr (.inl rfl), ⟨rfl, rfl, rfl, rfl, rfl⟩, by decide⟩
  · exact ⟨.inr (.inr ⟨_, _, rfl⟩), ⟨rfl, rfl, rfl, rfl, rfl⟩, by decide⟩

/-- ResponseRowEndsTheRead: 8 bytes, in a READPOS and in a READALL. -/
theorem witness_ResponseRowEndsTheRead :
    8 ≤ (List.replicate 8 0#8).length ∧ (inPhase .rWait 3#4 none {}).cmdOp = opReadPos ∧
      (inPhase .rWait 4#4 none {}).cmdOp = opReadAll := by decide

/-- RequestsAreSelfConsistent: a packet of each shape. -/
theorem witness_RequestsAreSelfConsistent :
    (∃ id, encReadPosition 1#8 = encReadPosition id) ∧ (∃ id q, encWritePosition 1#8 0 = encWritePosition id q) ∧
      (∃ id en, encWriteTorqueEnable 1#8 true = encWriteTorqueEnable id en) :=
  ⟨⟨_, rfl⟩, ⟨_, _, rfl⟩, _, _, rfl⟩

/-- ClampLimitsEveryPosition, ParserReadsBytesFiveAndSix, PositionRoundTrip: the ends of their ranges. -/
theorem witness_codec_ranges :
    ((-1 : Int) < 0 ∧ (4095 : Int) < 4096 ∧ (0 : Int) ≤ 0 ∧ (4095 : Int) ≤ 4095) ∧
    ((List.replicate 7 0#8).length < 8 ∧ 8 ≤ (List.replicate 8 0#8).length) ∧ (4095#16).toNat ≤ 4095 := by decide

/-- DecodeInvertsEncode and RequestDecodesOnlyFromItsPacket: a well-formed instruction, a packet that decodes. -/
theorem witness_decoding :
    Instr.wf (.reqWritePos 255#8 4095#16) = true ∧
      decodeRequest [0xFF#8, 0xFF#8, 0xFF#8, 0x05#8, 0x03#8, 0x2A#8, 0xFF#8, 0x0F#8, 0xC0#8] =
        .ok (.reqWritePos 255#8 4095#16) := by decide

/-- AssembledLinesDecode: the ends of each range, and the integers next to them. -/
theorem witness_AssembledLinesDecode :
    (∀ b ∈ ([-1, 4294967296] : List Int), b < 0 ∨ 4294967296 ≤ b) ∧
    (∀ b ∈ ([0, 4294967295] : List Int), 0 ≤ b ∧ b < 4294967296) ∧
    (∀ i ∈ ([-1, 256] : List Int), i < 0 ∨ 256 ≤ i) ∧ (∀ i ∈ ([0, 255] : List Int), 0 ≤ i ∧ i < 256) ∧
    (∀ q ∈ ([-2147483649, 2147483648] : List Int), q < -2147483648 ∨ 2147483648 ≤ q) ∧
    (∀ q ∈ ([-2147483648, 2147483647] : List Int), -2147483648 ≤ q ∧ q < 2147483648) := by decide

/-- ResetPinResetsEveryRegister: reset while connected, busy, and answered. -/
theorem witness_ResetPinResetsEveryRegister :
    let p : PortIn := { reset := true, answer := some .writeOk }
    (inPhase .wWrite 5#4 (some (.write [])) p).inputs = [p] ∧ p.reset = true := ⟨rfl, rfl⟩

/-- RegisterReadHasNoEffect, TraceIsAppendedToAndNeverRead, OnlyIsConnReadsRxUsable: a step that gives a next state. -/
theorem witness_next_state :
    (∃ t, step { idleConn with inputs := [{ cmd := some 0x103#64 }] } = .next t) ∧
      ∀ w, ({ cmd := some 0x103#64 } : PortIn).cmd = some w → decodeHostWord w ≠ .ok .isConn := by
  refine ⟨⟨_, rfl⟩, ?_⟩
  intro w hw
  cases hw
  decide

/-- StepRunsTheOfferedCommand: READALL, which is rejected while Disconnected and runs while Connected; ISCONN runs. -/
theorem witness_StepRunsTheOfferedCommand :
    (∀ s ∈ [State.reset, idleConn], ∀ w ∈ [4#64, 2#64],
      State.offered { s with inputs := [{ cmd := some w }] } { cmd := some w } [] w) ∧
    decodeHostWord 4#64 = .ok .readAll ∧ decodeHostWord 2#64 = .ok .isConn := by
  refine ⟨?_, by decide, by decide⟩
  intro s hs w _
  simp only [List.mem_cons, List.not_mem_nil, or_false] at hs
  rcases hs with rfl | rfl <;> exact ⟨rfl, rfl, rfl, rfl, rfl⟩

/-- StepRunsTheResponse: a chunk of the full length asked for. -/
theorem witness_StepRunsTheResponse :
    let bs := List.replicate 8 0xFF#8
    let s := inPhase .rWait 3#4 (some (.read 8)) (answerPins (.readData bs));
    s.phase = .rWait ∧ s.req = some (.read 8) ∧ 8 ≤ bs.length ∧ bs.length ≤ 8 ∧
      s.inTime (answerPins (.readData bs)) ∧ s.answered (answerPins (.readData bs)) [] (.readData bs) :=
  ⟨rfl, rfl, by decide, by decide, .inl rfl, rfl, rfl, rfl⟩

/-- IllegalWordCompletesAtOnce: OP 6, RSV0 1 and RSV1 1. -/
theorem witness_IllegalWordCompletesAtOnce :
    ∀ w ∈ [6#64, 0x13#64, 0x10003#64],
      State.offered { State.reset with inputs := [{ cmd := some w }] } { cmd := some w } [] w ∧
        (6 ≤ (w.extractLsb' 0 4).toNat ∨ w.extractLsb' 4 4 ≠ 0#4 ∨ w.extractLsb' 16 16 ≠ 0#16) := by
  intro w hw
  refine ⟨⟨rfl, rfl, rfl, rfl, rfl⟩, ?_⟩
  simp only [List.mem_cons, List.not_mem_nil, or_false] at hw
  rcases hw with rfl | rfl | rfl <;> decide

/-- BusyBlockTakesNoCommand. -/
theorem witness_BusyBlockTakesNoCommand : (inPhase .cOpen 0#4 none {}).phase ≠ .idle := by decide

/-- A state that waits for a read of READPOS 1 meets the invariant, with one pin record to come. -/
theorem witness_invariant (p : PortIn) : State.Inv { idleConn with
    phase := .rWait, cmdOp := 3#4, cmdId := 1#8, rdHeld := true, timer := 2000#16, txbuf := encReadPosition 1#8
    req := some (.read Config.readMaxLen), inputs := [p] } := by
  constructor
  case shape =>
    exact .inr ⟨.reqReadPos 1#8, (by decide : decodeRequest (encReadPosition 1#8) = .ok (.reqReadPos 1#8))⟩
  all_goals simp [idleConn, State.reset, State.awaited, State.commandOk, State.packetOk, State.sweeping,
    State.timerOk, State.unattempted, opReadPos]

/-- StepIsNextWhereTheTransportIsAllowed, StepKeepsInvariant, EveryWriteIsARequestOfTheCodec: a step from a state that
meets the invariant. -/
theorem witness_step_from_invariant :
    ∃ s t, State.Inv s ∧ s.inputs = [({ answer := some .readEnd } : PortIn)] ∧ step s = .next t :=
  ⟨_, _, witness_invariant { answer := some .readEnd }, rfl, rfl⟩

/-- UnansweredRequestKeepsTheBlockBusy: two silent records in C_OPEN. -/
theorem witness_UnansweredRequestKeepsTheBlockBusy :
    let moves : List PortIn := [{ tick := true }, { cmd := some 1#64 }]
    let s := { idleConn with phase := .cOpen, inputs := moves };
    s.phase.unbounded = true ∧ (∀ p ∈ moves, p.silent = true) ∧ s.inputs = moves ++ [] := by decide

/-- ExpiryComesOnTheNthTick: the second tick of two, with a record without a tick between. -/
theorem witness_ExpiryComesOnTheNthTick :
    let moves : List PortIn := [{ tick := true }, {}]
    let p : PortIn := { tick := true }
    let s := { idleConn with phase := .sGap, timer := 2#16, inputs := moves ++ [p] };
    s.phase.timed = true ∧ (∀ q ∈ moves, q.silent = true) ∧ p.silent = true ∧ p.tick = true ∧
      (moves.filter (·.tick)).length + 1 = s.timer.toNat ∧ s.inputs = moves ++ p :: [] := by decide

/-- TieGoesEitherWay: a read's outcome on the last tick, with each choice of the environment, in a READPOS and in a
READALL at motors 1 and 6. -/
theorem witness_TieGoesEitherWay :
    ∀ b ∈ [true, false], ∀ op ∈ [opReadPos, opReadAll], ∀ i ∈ [1#3, 6#3],
      let p : PortIn := { answer := some .readEnd, tick := true, answerWins := b }
      let s := { inPhase .rWait op (some (.read Config.readMaxLen)) p with timer := 1#16, idx := i };
      s.phase = .rWait ∧ s.req = some (.read Config.readMaxLen) ∧ s.timer = 1#16 ∧ s.allows .readEnd = true ∧
        s.answered p [] .readEnd ∧ p.tick = true ∧ p.answerWins = b ∧ s.cmdOp = op ∧ s.idx = i ∧
        (1#3 ≤ i ∧ i ≤ 6#3) := by
  intro b _ op _ i hi
  refine ⟨rfl, rfl, rfl, rfl, ⟨rfl, rfl, rfl⟩, rfl, rfl, rfl, rfl, ?_⟩
  revert i
  decide

/-- The rules on who writes what (CONN, the holds, LAST_STATUS, the result registers): a step without reset that gives
a next state and changes CONN and WR_HELD. -/
theorem witness_writers :
    let s := { inPhase .cOpen 0#4 (some (.openStream 0#32)) (answerPins .openOk) with conn := false, wrHeld := false };
    ∃ t, s.inputs = [answerPins .openOk] ∧ (answerPins .openOk).reset = false ∧ step s = .next t ∧
      t.conn ≠ s.conn ∧ t.wrHeld ≠ s.wrHeld :=
  ⟨_, rfl, rfl, rfl, by decide, by decide⟩

/-- ResultRegistersHaveTheirWriters, HoldsChangeOnlyByTheirRules, ShortReadsNeverGiveAPosition: a step that ends a read,
releases the read side and writes RESULT_POS. -/
theorem witness_read_ends :
    let s := { inPhase .rWait 3#4 (some (.read 7)) (answerPins .readErr) with rdHeld := true, resultPos := 0x10000#17 };
    ∃ t, 7 < 8 ∧ s.phase = .rWait ∧ s.req = some (.read 7) ∧ t.phase ≠ s.phase ∧ t.phase ≠ .rWait ∧
      s.inputs = [answerPins .readErr] ∧ (answerPins .readErr).reset = false ∧ step s = .next t ∧
      t.rdHeld ≠ s.rdHeld ∧ t.resultPos ≠ s.resultPos :=
  ⟨_, by decide, rfl, rfl, by decide, by decide, rfl, rfl, rfl, by decide, by decide⟩

/-- OtherResponseBytesDoNotMatter: two chunks that agree in bytes 5 and 6 alone. -/
theorem witness_OtherResponseBytesDoNotMatter :
    let c := List.replicate 8 0xFF#8
    let d := [0#8, 0#8, 0#8, 0#8, 0#8, 0xFF#8, 0xFF#8, 0#8, 0#8]
    let s := inPhase .rWait 3#4 (some (.read 9)) {};
    s.phase = .rWait ∧ s.req = some (.read 9) ∧ (8 ≤ c.length ∧ 8 ≤ d.length ∧ c.length ≤ 9 ∧ d.length ≤ 9) ∧
      (c.getD 5 0#8 = d.getD 5 0#8 ∧ c.getD 6 0#8 = d.getD 6 0#8) ∧
      ∃ t, step { s with inputs := [{ answer := some (.readData c) }] } = .next t :=
  ⟨rfl, rfl, by decide, by decide, _, rfl⟩

/-- NoDataDoesNotRevealItsCause: no more data against the deadline, and a chunk of 7 bytes against an error. -/
theorem witness_NoDataDoesNotRevealItsCause :
    let s := { inPhase .rWait 3#4 (some (.read 7)) {} with timer := 1#16 }
    let short : PortIn := { answer := some (.readData (List.replicate 7 0#8)) }
    (s.phase = .rWait ∧ s.req = some (.read 7) ∧ s.cmdOp = opReadPos) ∧
      (PortIn.noData { answer := some .readEnd } s ∧ PortIn.noData { tick := true } s) ∧
      (PortIn.noData short s ∧ PortIn.noData { answer := some .readErr } s ∧ (List.replicate 7 0#8).length ≤ 7) :=
  ⟨⟨rfl, rfl, rfl⟩, ⟨⟨rfl, .inl ⟨rfl, .inl rfl⟩⟩, rfl, .inr ⟨rfl, rfl, rfl⟩⟩,
    ⟨rfl, .inl ⟨rfl, .inr (.inr ⟨_, rfl, by decide, by decide⟩)⟩⟩, ⟨rfl, .inl ⟨rfl, .inr (.inl rfl)⟩⟩, by decide⟩

/-- DisconnectDisablesAllSixMotors: motor 4's write fails, the close too. -/
theorem witness_DisconnectDisablesAllSixMotors :
    let fails : Vector Bool 6 := #v[false, false, false, true, false, false]
    let script := ({ cmd := some 1#64 } : PortIn) :: (fails.toList.flatMap disableScript ++ [answerPins .closeErr])
    let s := { idleConn with inputs := script };
    s.phase = .idle ∧ s.conn = true ∧ s.inputs = script ++ [] := ⟨rfl, rfl, by rw [List.append_nil]⟩

/-- ReadAllWritesAllSixEntries: every fate of a read. -/
theorem witness_ReadAllWritesAllSixEntries :
    let fates : Vector ReadFate 6 := #v[.writeFails, .chunk [0#8], .ends, .fails, .deadline, .deadline]
    let script := ({ cmd := some 4#64 } : PortIn) :: fates.toList.flatMap readScript
    let s := { idleConn with inputs := script };
    s.phase = .idle ∧ s.conn = true ∧ (∀ i : Fin 6, fates[i].possible) ∧ s.inputs = script ++ [] := by
  refine ⟨rfl, rfl, ?_, by rw [List.append_nil]⟩
  intro i
  match i with
  | 0 => trivial
  | 1 => exact ⟨Nat.le_refl 1, Nat.le_add_left 1 _⟩
  | 2 => trivial
  | 3 => trivial
  | 4 => trivial
  | 5 => trivial

end Sys2Proof.Tests
end

/-! ## The invariant, phase by phase (O43)

`State.Inv` is one list of conditions, most of which depend on the phase. Here it is read as two parts: what no phase
changes (`State.DataOk`) and what one phase asks (`State.PhaseOk`). Each shared operation that ends a move then has one
lemma that says when the invariant holds after it. -/

namespace Sys2Proof.Machine

/-! ### The packets the block builds are request shapes -/

/-- A txbuf that the invariant allows: empty, or one of the three request shapes (R39, R94). -/
def RequestShape (b : List Byte) : Prop := b = [] ∨ ∃ i, decodeRequest b = .ok i

theorem requestShape_encReadPosition (id : Byte) : RequestShape (encReadPosition id) :=
  .inr ⟨.reqReadPos id, decodeRequest_frame (by simp [matchBody])⟩

theorem requestShape_encWritePosition (id : Byte) (p : Int) : RequestShape (encWritePosition id p) :=
  .inr ⟨.reqWritePos id (posHigh (clamp p) ++ posLow (clamp p)),
    decodeRequest_frame (by simp [matchBody, posHigh_le])⟩

theorem requestShape_encWriteTorqueEnable (id : Byte) (enabled : Bool) :
    RequestShape (encWriteTorqueEnable id enabled) :=
  .inr ⟨.reqWriteTorque id enabled, decodeRequest_frame (by
    cases enabled <;> simp [matchBody, Config.instrRead, Config.instrWrite])⟩

/-! ### The invariant in two parts -/

/-- The part of the invariant that no phase changes. -/
def State.DataOk (s : State) : Prop :=
  RequestShape s.txbuf ∧ s.rxbuf = [] ∧ s.idx ≤ 6#3 ∧
  (s.resultPos.getLsbD 16 = false → s.resultPos = 0#17) ∧
  ∀ i : Fin 6, s.sweepValid.getLsbD i = false → s.sweepPos[i] = 0#16

/-- The holds and the lifecycle state of a phase: write access held, the read side held or not (R26, R27). -/
def State.Holds (s : State) (conn wr rd : Bool) : Prop := s.conn = conn ∧ s.wrHeld = wr ∧ s.rdHeld = rd

/-- The latched command reads positions, and idx names a motor if it is the sweep (R37). -/
def State.Reading (s : State) : Prop :=
  (s.cmdOp = opReadPos ∨ s.cmdOp = opReadAll) ∧ (s.cmdOp = opReadAll → 1#3 ≤ s.idx)

/-- What the invariant asks of a state in the phase `ph`. -/
def State.PhaseOk (s : State) (ph : Phase) : Prop :=
  match ph with
  | .idle => s.wrHeld = s.conn ∧ s.rdHeld = false ∧ s.req = none
  | .cOpen => s.Holds false false false ∧ s.cmdOp = opConnect ∧ s.req = some (.openStream s.cmdOpnd)
  | .rWrite => s.Holds true true true ∧ s.Reading ∧
      s.req = some (.write s.txbuf) ∧ s.txbuf = encReadPosition s.readingId
  | .rWait => s.Holds true true true ∧ s.Reading ∧
      s.req = some (.read Config.readMaxLen) ∧ 1 ≤ s.timer.toNat ∧ s.timer.toNat ≤ 2000
  | .sGap => s.Holds true true false ∧ s.cmdOp = opReadAll ∧ 1#3 ≤ s.idx ∧ s.req = none ∧
      1 ≤ s.timer.toNat ∧ s.timer.toNat ≤ 50
  | .wWrite => s.Holds true true false ∧ s.cmdOp = opWritePos ∧ s.posc = clamp (requestedPos s.cmdOpnd) ∧
      s.req = some (.write s.txbuf) ∧ s.txbuf = encWritePosition s.cmdId (requestedPos s.cmdOpnd)
  | .dWrite => s.Holds true true false ∧ s.cmdOp = opDisconnect ∧ 1#3 ≤ s.idx ∧
      s.req = some (.write s.txbuf) ∧ s.txbuf = encWriteTorqueEnable (s.idx.setWidth 8) false ∧
      ∀ i : Fin 6, s.idx.toNat ≤ i + 1 → s.disableFail.getLsbD i = false
  | .dGap => s.Holds true true false ∧ s.cmdOp = opDisconnect ∧ 1#3 ≤ s.idx ∧ s.req = none ∧
      (1 ≤ s.timer.toNat ∧ s.timer.toNat ≤ 20) ∧
      ∀ i : Fin 6, s.idx.toNat < i + 1 → s.disableFail.getLsbD i = false
  | .dClose => s.Holds true false false ∧ s.cmdOp = opDisconnect ∧ 1#3 ≤ s.idx ∧ s.req = some .closeStream

/-- The invariant is its two parts. -/
theorem inv_iff (s : State) : s.Inv ↔ s.DataOk ∧ s.PhaseOk s.phase := by
  constructor
  · rintro ⟨hw, hr, hq, hc, hp, hs, hx, ⟨hi, hm⟩, ht, hres, hsw, hdis⟩
    refine ⟨⟨hs, hx, hi, hres, hsw⟩, ?_⟩
    revert hw hr hq hc hp hm ht hdis
    cases h : s.phase <;>
      simp +contextual [State.PhaseOk, State.Holds, State.Reading, State.awaited, State.commandOk, State.packetOk,
        State.sweeping, State.timerOk, State.unattempted, h, opReadAll]
  · rintro ⟨⟨hs, hx, hi, hres, hsw⟩, hph⟩
    refine ⟨?_, ?_, ?_, ?_, ?_, hs, hx, ⟨hi, ?_⟩, ?_, hres, hsw, ?_⟩ <;> revert hph <;> cases h : s.phase <;>
      simp +contextual [State.PhaseOk, State.Holds, State.Reading, State.awaited, State.commandOk, State.packetOk,
        State.sweeping, State.timerOk, State.unattempted, h, opReadAll]

/-! ### When the invariant holds after an operation that ends a move -/

variable {s t : State}

/-- idx set to a motor's number, or to 0, keeps the data. -/
theorem dataOk_idx {k : BitVec 3} (hd : s.DataOk) (hk : k ≤ 6#3) : State.DataOk { s with idx := k } := by
  obtain ⟨hs, hx, -, hres, hsw⟩ := hd
  exact ⟨hs, hx, hk, hres, hsw⟩

/-- After a completion, if nothing is outstanding and the holds are those of an idle block. -/
theorem complete_inv (st : Status) (hd : s.DataOk) (hw : s.wrHeld = s.conn) (hr : s.rdHeld = false)
    (hq : s.req = none) : (complete st s).Inv :=
  (inv_iff _).2 ⟨hd, hw, hr, hq⟩

/-- After the start of a read transaction of the motor that the latched command reads. -/
theorem startRead_inv (hd : s.DataOk) (hc : s.conn = true) (hw : s.wrHeld = true) (hr : s.Reading) :
    (startRead s.readingId s).Inv :=
  (inv_iff _).2 ⟨⟨requestShape_encReadPosition _, hd.2⟩, ⟨hc, hw, rfl⟩, hr, rfl, rfl⟩

/-- After the torque-disable request of motor idx, if no motor from idx on has a failure bit. -/
theorem disableStep_inv (hd : s.DataOk) (hh : s.Holds true true false) (ho : s.cmdOp = opDisconnect)
    (hi : 1#3 ≤ s.idx) (hf : ∀ i : Fin 6, s.idx.toNat ≤ i + 1 → s.disableFail.getLsbD i = false) :
    (disableStep s).Inv :=
  (inv_iff _).2 ⟨⟨requestShape_encWriteTorqueEnable _ _, hd.2⟩, hh, ho, hi, rfl, rfl, hf⟩

/-- At the beginning of a disable gap, if no motor after idx has a failure bit. -/
theorem beginDisableGap_inv (hd : s.DataOk) (hh : s.Holds true true false) (ho : s.cmdOp = opDisconnect)
    (hi : 1#3 ≤ s.idx) (hq : s.req = none)
    (hf : ∀ i : Fin 6, s.idx.toNat < i + 1 → s.disableFail.getLsbD i = false) : (beginDisableGap s).Inv :=
  (inv_iff _).2 ⟨hd, hh, ho, hi, hq, by simp, hf⟩

/-- A result that is not valid is 0 (R30). -/
theorem posRegister_invalid (v : Option (BitVec 16)) (h : (posRegister v).getLsbD 16 = false) :
    posRegister v = 0#17 := by
  cases v with
  | none => rfl
  | some x =>
    have hv : (1#1 ++ x).getLsbD 16 = true := by rw [BitVec.getLsbD_append]; rfl
    exact absurd (hv.symm.trans h) (by decide)

/-- After the sweep entry of a motor is stored, an entry that is not valid is 0 (R31). -/
theorem storeSweepEntry_invalid (v : Option (BitVec 16))
    (h : ∀ i : Fin 6, s.sweepValid.getLsbD i = false → s.sweepPos[i] = 0#16) (i : Fin 6)
    (hi : (setMotorBit s.sweepValid s.idx v.isSome).getLsbD i = false) :
    (setMotorPos s.sweepPos s.idx (v.getD 0#16))[i] = 0#16 := by
  rw [setMotorBit_get] at hi
  rw [setMotorPos_get]
  split_ifs at hi ⊢
  · cases v with
    | none => rfl
    | some x => cases hi
  · exact h i hi

/-- After the end of a read, whatever its result. -/
theorem finishRead_inv (v : Option (BitVec 16)) (hd : s.DataOk) (hc : s.conn = true) (hw : s.wrHeld = true)
    (hr : s.Reading) (hq : s.req = none) : (finishRead v s).Inv := by
  obtain ⟨hs, hx, hi, hres, hsw⟩ := hd
  obtain ⟨ho | ho, hm⟩ := hr
  · rw [finishRead_readPos v ho]
    exact complete_inv .ok ⟨hs, hx, hi, posRegister_invalid v, hsw⟩ (hw.trans hc.symm) rfl hq
  · rw [finishRead_readAll v ho]
    exact (inv_iff _).2 ⟨⟨hs, hx, hi, hres, storeSweepEntry_invalid v hsw⟩, ⟨hc, hw, rfl⟩, ho, hm ho, hq, by simp⟩

/-! ### A tick, the sampled pins and the reset pin -/

/-- A lower timer that is still running keeps what a phase asks (R38). -/
theorem phaseOk_lowerTimer {ph : Phase} {m : BitVec 16} (h : s.PhaseOk ph) (h1 : 1 ≤ m.toNat)
    (hm : m.toNat ≤ s.timer.toNat) : State.PhaseOk { s with timer := m } ph := by
  cases ph with
  | rWait =>
    obtain ⟨hh, hr, hq, -, h2⟩ := h
    exact ⟨hh, hr, hq, h1, hm.trans h2⟩
  | sGap =>
    obtain ⟨hh, ho, hi, hq, -, h2⟩ := h
    exact ⟨hh, ho, hi, hq, h1, hm.trans h2⟩
  | dGap =>
    obtain ⟨hh, ho, hi, hq, ⟨-, h2⟩, hf⟩ := h
    exact ⟨hh, ho, hi, hq, ⟨h1, hm.trans h2⟩, hf⟩
  | _ => exact h

/-- A tick that ends no timed phase keeps the invariant: the timer stays at 1 or above (R217). -/
theorem countTick_inv {b : Bool} (h : s.Inv) (he : expires b s = false) : (countTick b s).Inv := by
  by_cases hb : b = true ∧ s.phase.timed = true
  · obtain ⟨rfl, ht⟩ := hb
    have h1 : 1 < s.timer.toNat := by
      by_contra h1
      simp [(expires_iff true s).2 ⟨rfl, ht, by omega⟩] at he
    have h0 : s.timer ≠ 0#16 := by rintro h0; simp [h0] at h1
    obtain ⟨hd, hph⟩ := (inv_iff s).1 h
    rw [countTick_timed ht, countDown, if_neg h0]
    exact (inv_iff _).2 ⟨hd, phaseOk_lowerTimer hph (by bv_omega) (by bv_omega)⟩
  · have hs : countTick b s = s := by
      simp only [not_and, Bool.not_eq_true] at hb
      cases b <;> simp [countTick, hb]
    rwa [hs]

theorem after_inv (p : PortIn) (rest : List PortIn) (h : s.Inv) : (s.after p rest).Inv :=
  (inv_iff _).2 ((inv_iff s).1 h)

theorem resetByPin_inv (s : State) : (resetByPin s).Inv :=
  (inv_iff _).2 ⟨⟨.inl rfl, rfl, by simp [resetByPin_eq, State.reset], fun _ => rfl,
    fun i _ => Vector.getElem_replicate i.isLt⟩, rfl, rfl, rfl⟩

/-! ### Every move keeps the invariant -/

/-- An expiry always leaves an event, so it never looks like a step that only ticks. -/
theorem takeExpiry_ne (ht : s.phase.timed = true) : takeExpiry s ≠ s := by
  intro h
  have h := congrArg (fun s => s.trace.length) h
  cases hp : s.phase <;> simp [hp, Phase.timed] at ht <;> simp only [takeExpiry, hp] at h
  · rcases finishRead_cases none (tCancel (record .expire s)) with ⟨-, hf⟩ | ⟨-, hf⟩ | ⟨-, -, hf⟩ <;>
      simp [readExpired, hf] at h
  · simp only [sweepGapExpired] at h
    split_ifs at h <;> simp at h
  · simp only [disableGapExpired] at h
    split_ifs at h <;> simp at h

/-- A step that only ticks is not the end of a timed phase. -/
theorem not_expires_of_quiet {p : PortIn} (ha : p.answer = none) (h : orchestrate p s = .next (countTick p.tick s)) :
    expires p.tick s = false := by
  by_contra he
  have he : expires p.tick s = true := by simpa using he
  obtain ⟨-, ht, -⟩ := (expires_iff p.tick s).1 he
  rw [orchestrate_expiry ha he] at h
  exact takeExpiry_ne (by simpa using ht) (Host.Outcome.next.inj h)

/-- What the orchestrator leads to keeps the invariant: every move, by the operation that ends it. -/
theorem orchestrate_inv {p : PortIn} (h : s.Inv) (ht : orchestrate p s = .next t) : t.Inv := by
  obtain ⟨hd, hph⟩ := (inv_iff s).1 h
  cases orchestrate_move ht with
  | quiet ha he =>
    subst he; exact countTick_inv h (not_expires_of_quiet ha ht)
  | connectAgain w _ hp _ _ _ he
  | notConnected w _ hp _ _ he
  | illegal w e _ hp _ _ he
  | disconnectNoOp w _ hp _ _ _ he
  | isConn w _ hp _ _ he =>
    obtain ⟨hw, hr, hq⟩ : s.PhaseOk .idle := hp ▸ hph
    subst he; exact complete_inv _ hd hw hr hq
  | connect w _ hp _ hdec hc he =>
    obtain ⟨hw, hr, hq⟩ : s.PhaseOk .idle := hp ▸ hph
    have ho : hostOp w = 0x0#4 := by simpa using decodeHostWord_ok hdec
    subst he; exact (inv_iff _).2 ⟨hd, ⟨hc, hw.trans hc, hr⟩, ho, rfl⟩
  | disconnect w _ hp _ hdec hc he =>
    obtain ⟨hw, hr, hq⟩ : s.PhaseOk .idle := hp ▸ hph
    have ho : hostOp w = 0x1#4 := by simpa using decodeHostWord_ok hdec
    subst he
    exact disableStep_inv (dataOk_idx hd (by decide)) ⟨hc, hw.trans hc, hr⟩ ho
      (by decide : 1#3 ≤ 1#3) (by simp)
  | readPos w _ hp _ hdec hc he =>
    obtain ⟨hw, hr, hq⟩ : s.PhaseOk .idle := hp ▸ hph
    have ho : hostOp w = 0x3#4 := by simpa using decodeHostWord_ok hdec
    have hid : (takeWord w s).readingId = hostId w := if_pos ho
    subst he; rw [← hid]
    exact startRead_inv hd hc (hw.trans hc) ⟨.inl ho, fun ha => absurd (ho.symm.trans ha) (by decide)⟩
  | readAll w _ hp _ hdec hc he =>
    obtain ⟨hw, hr, hq⟩ : s.PhaseOk .idle := hp ▸ hph
    have ho : hostOp w = 0x4#4 := by simpa using decodeHostWord_ok hdec
    have hid : State.readingId { takeWord w s with idx := 1#3 } = 1#8 := by simp [State.readingId, ho]
    subst he; rw [← hid]
    exact startRead_inv (dataOk_idx hd (by decide)) hc (hw.trans hc)
      ⟨.inr ho, fun _ => (by decide : 1#3 ≤ 1#3)⟩
  | writePos w _ hp _ hdec hc he =>
    obtain ⟨hw, hr, hq⟩ : s.PhaseOk .idle := hp ▸ hph
    have ho : hostOp w = 0x5#4 := by simpa using decodeHostWord_ok hdec
    subst he; rw [encWritePosition_clamp]
    exact (inv_iff _).2 ⟨⟨requestShape_encWritePosition _ _, hd.2⟩, ⟨hc, hw.trans hc, hr⟩, ho, rfl, rfl, rfl⟩
  | readExpired _ hp he =>
    obtain ⟨⟨hc, hw, -⟩, hr, -⟩ : s.PhaseOk .rWait := hp ▸ hph
    rw [countTick_eq] at he
    subst he; exact finishRead_inv none hd hc hw hr rfl
  | sweepNext _ hp hi he =>
    obtain ⟨⟨hc, hw, hr⟩, ho, h1, -⟩ : s.PhaseOk .sGap := hp ▸ hph
    rw [countTick_eq] at he
    have hid : State.readingId { s with idx := s.idx + 1#3 } = (s.idx + 1#3).setWidth 8 := by
      simp [State.readingId, ho, opReadAll]
    subst he; rw [← hid]
    exact startRead_inv (dataOk_idx hd (by bv_omega)) hc hw
      ⟨.inr ho, fun _ => (by bv_omega : 1#3 ≤ s.idx + 1#3)⟩
  | sweepEnd _ hp _ he =>
    obtain ⟨⟨hc, hw, hr⟩, -, -, hq, -⟩ : s.PhaseOk .sGap := hp ▸ hph
    rw [countTick_eq] at he
    subst he; exact complete_inv _ hd (hw.trans hc.symm) hr hq
  | disableNext _ hp hi he =>
    obtain ⟨hh, ho, h1, -, -, hf⟩ : s.PhaseOk .dGap := hp ▸ hph
    rw [countTick_eq] at he
    subst he
    refine disableStep_inv (dataOk_idx hd (by bv_omega)) hh ho
      (by bv_omega : 1#3 ≤ s.idx + 1#3) fun i h => hf i ?_
    have h : (s.idx + 1#3).toNat ≤ i + 1 := h
    bv_omega
  | disableEnd _ hp _ he =>
    obtain ⟨⟨hc, -, hr⟩, ho, h1, -⟩ : s.PhaseOk .dGap := hp ▸ hph
    rw [countTick_eq] at he
    subst he; exact (inv_iff _).2 ⟨hd, ⟨hc, rfl, hr⟩, ho, h1, rfl⟩
  | opened _ hp he =>
    obtain ⟨⟨-, -, hr⟩, -⟩ : s.PhaseOk .cOpen := hp ▸ hph
    subst he; exact complete_inv _ hd rfl hr rfl
  | openFailed _ hp he =>
    obtain ⟨⟨hc, hw, hr⟩, -⟩ : s.PhaseOk .cOpen := hp ▸ hph
    subst he; exact complete_inv _ hd (hw.trans hc.symm) hr rfl
  | readWritten _ hp he =>
    obtain ⟨hh, hr, -⟩ : s.PhaseOk .rWrite := hp ▸ hph
    subst he; exact (inv_iff _).2 ⟨hd, hh, hr, rfl, by simp [readRequestWritten]⟩
  | readWriteFailed _ hp he =>
    obtain ⟨⟨hc, hw, -⟩, hr, -⟩ : s.PhaseOk .rWrite := hp ▸ hph
    subst he; exact finishRead_inv none hd hc hw hr rfl
  | chunk bs _ hp _ he =>
    obtain ⟨⟨hc, hw, -⟩, hr, -⟩ : s.PhaseOk .rWait := hp ▸ hph
    obtain ⟨hs, -, hrest⟩ := hd
    rw [countTick_eq] at he
    subst he; exact finishRead_inv _ ⟨hs, rfl, hrest⟩ hc hw hr rfl
  | readEnded a _ _ hp he =>
    obtain ⟨⟨hc, hw, -⟩, hr, -⟩ : s.PhaseOk .rWait := hp ▸ hph
    rw [countTick_eq] at he
    subst he; exact finishRead_inv none hd hc hw hr rfl
  | writeAnswered a _ _ hp he =>
    obtain ⟨⟨hc, hw, hr⟩, -⟩ : s.PhaseOk .wWrite := hp ▸ hph
    subst he; exact complete_inv _ hd (hw.trans hc.symm) hr rfl
  | disableWritten _ hp he =>
    obtain ⟨hh, ho, h1, -, -, hf⟩ : s.PhaseOk .dWrite := hp ▸ hph
    subst he; exact beginDisableGap_inv hd hh ho h1 rfl fun i hi => hf i hi.le
  | disableFailed _ hp he =>
    obtain ⟨hh, ho, h1, -, -, hf⟩ : s.PhaseOk .dWrite := hp ▸ hph
    subst he
    refine beginDisableGap_inv hd hh ho h1 rfl fun i hi => ?_
    have hi : s.idx.toNat < i + 1 := hi
    show (setMotorBit s.disableFail s.idx true).getLsbD i = false
    rw [setMotorBit_get, if_neg (by omega)]
    exact hf i hi.le
  | closed a _ _ hp he =>
    obtain ⟨⟨-, hw, hr⟩, -⟩ : s.PhaseOk .dClose := hp ▸ hph
    subst he; exact complete_inv _ hd hw hr rfl

/-- Settles O43: the reset pin leads to a state that meets the invariant, and every move keeps it. -/
theorem stepKeepsInvariant : Obligations.StepKeepsInvariant := by
  unfold Obligations.StepKeepsInvariant
  intro s t h ht
  cases hi : s.inputs with
  | nil =>
    rw [step_nil hi] at ht
    cases ht; exact h
  | cons p rest =>
    cases hr : p.reset with
    | true =>
      rw [step_reset hi hr] at ht
      cases ht; exact resetByPin_inv _
    | false =>
      rw [step_pins hi hr] at ht
      exact orchestrate_inv (after_inv p rest h) ht

end Sys2Proof.Machine

/-! ## What the step does not read (O32, O48, O49, O37)

REG_SEL, the trace and, but for ISCONN, RX_USABLE are never read. One change of all three, `State.relabel`, commutes
with every operation of the step, and so with the step, which gives the three statements. -/

namespace Sys2Proof.Machine

/-- The state with REG_SEL changed by `f`, RX_USABLE by `g`, and the events `tr` put before its trace. -/
def State.relabel (f : BitVec 8 → BitVec 8) (g : Bool → Bool) (tr : List Event) (s : State) : State :=
  { s with regSel := f s.regSel, rxUsable := g s.rxUsable, trace := tr ++ s.trace }

/-- A change of the next state, where there is one. -/
def mapNext (f : State → State) : Host.Outcome State Fault Refusal → Host.Outcome State Fault Refusal
  | .next s => .next (f s)
  | .fault r => .fault r
  | .refused r => .refused r

theorem mapNext_eq_next {f : State → State} {o : Host.Outcome State Fault Refusal} {t : State}
    (h : mapNext f o = .next t) : ∃ u, o = .next u ∧ t = f u := by
  cases o with
  | next u => exact ⟨u, rfl, (Host.Outcome.next.inj h).symm⟩
  | fault r => cases h
  | refused r => cases h

section Commutes

variable (f : BitVec 8 → BitVec 8) (g : Bool → Bool) (tr : List Event) (s : State)

/-- The fields that decide what a step does are not relabelled. -/
@[simp] theorem relabel_fields : (s.relabel f g tr).phase = s.phase ∧ (s.relabel f g tr).conn = s.conn ∧
    (s.relabel f g tr).cmdOp = s.cmdOp ∧ (s.relabel f g tr).idx = s.idx ∧ (s.relabel f g tr).req = s.req :=
  ⟨rfl, rfl, rfl, rfl, rfl⟩

theorem record_relabel (e : Event) : record e (s.relabel f g tr) = (record e s).relabel f g tr := by
  simp [record, State.relabel]

theorem issue_relabel (r : Request) : issue r (s.relabel f g tr) = (issue r s).relabel f g tr :=
  record_relabel f g tr { s with req := some r } _

theorem complete_relabel (st : Status) : complete st (s.relabel f g tr) = (complete st s).relabel f g tr :=
  record_relabel f g tr { s with lastStatus := st, phase := .idle } _

theorem raise_relabel (st : Status) : raise st (s.relabel f g tr) = (raise st s).relabel f g tr :=
  complete_relabel f g tr s st

theorem issuePacket_relabel (c : List Byte) (ph : Phase) :
    issuePacket c ph (s.relabel f g tr) = (issuePacket c ph s).relabel f g tr :=
  issue_relabel f g tr { s with txbuf := c, phase := ph } _

theorem releaseRead_relabel : releaseRead (s.relabel f g tr) = (releaseRead s).relabel f g tr :=
  record_relabel f g tr { s with rdHeld := false } _

theorem releaseWrite_relabel : releaseWrite (s.relabel f g tr) = (releaseWrite s).relabel f g tr :=
  record_relabel f g tr { s with wrHeld := false } _

theorem tCancel_relabel : tCancel (s.relabel f g tr) = (tCancel s).relabel f g tr :=
  record_relabel f g tr { s with req := none } _

theorem startRead_relabel (i : Byte) : startRead i (s.relabel f g tr) = (startRead i s).relabel f g tr := by
  have h : acquireRead (s.relabel f g tr) = (acquireRead s).relabel f g tr :=
    record_relabel f g tr { s with rdHeld := true } _
  simp only [startRead, h, issuePacket_relabel]

theorem disableStep_relabel : disableStep (s.relabel f g tr) = (disableStep s).relabel f g tr :=
  issuePacket_relabel f g tr s _ _

theorem takeOutcome_relabel (a : Answer) : takeOutcome a (s.relabel f g tr) = (takeOutcome a s).relabel f g tr :=
  record_relabel f g tr { s with req := none } _

theorem countTick_relabel (tick : Bool) : countTick tick (s.relabel f g tr) = (countTick tick s).relabel f g tr := by
  simp only [countTick, relabel_fields]
  split_ifs <;> rfl

theorem takeRejected_relabel (w : HostWord) :
    takeRejected w (s.relabel f g tr) = (takeRejected w s).relabel f g tr := record_relabel f g tr s _

theorem takeLegal_relabel (i : Instr) (w : HostWord) :
    takeLegal i w (s.relabel f g tr) = (takeLegal i w s).relabel f g tr := by
  have hr : rejectedAtTake i (s.relabel f g tr) = rejectedAtTake i s := rfl
  unfold takeLegal
  rw [hr]
  split_ifs
  · exact takeRejected_relabel f g tr s w
  · exact record_relabel f g tr { s with cmdOp := hostOp w, cmdId := hostId w, cmdOpnd := hostOpnd w } _

theorem finishRead_relabel (v : Option (BitVec 16)) :
    finishRead v (s.relabel f g tr) = (finishRead v s).relabel f g tr := by
  simp only [finishRead, releaseRead_relabel, relabel_fields]
  split_ifs
  · exact complete_relabel f g tr { releaseRead s with resultPos := posRegister v } _
  · rfl
  · rfl

theorem takeExpiry_relabel : takeExpiry (s.relabel f g tr) = (takeExpiry s).relabel f g tr := by
  simp only [takeExpiry, relabel_fields]
  split
  · simp only [readExpired, record_relabel, tCancel_relabel, finishRead_relabel]
  · simp only [sweepGapExpired, record_relabel, relabel_fields]
    split_ifs
    · exact startRead_relabel f g tr { record .expire s with idx := (record .expire s).idx + 1#3 } _
    · exact complete_relabel f g tr _ _
  · simp only [disableGapExpired, record_relabel, relabel_fields, releaseWrite_relabel]
    split_ifs
    · exact disableStep_relabel f g tr { record .expire s with idx := (record .expire s).idx + 1#3 }
    · exact issue_relabel f g tr { releaseWrite (record .expire s) with phase := .dClose } _
  all_goals rfl

theorem next_relabel {u v : State} (h : u = v.relabel f g tr) :
    (.next u : Host.Outcome State Fault Refusal) = mapNext (State.relabel f g tr) (.next v) :=
  congrArg _ h

theorem takeAnswer_relabel (a : Answer) :
    takeAnswer a (s.relabel f g tr) = mapNext (State.relabel f g tr) (takeAnswer a s) := by
  simp only [takeAnswer, relabel_fields, takeOutcome_relabel]
  generalize takeOutcome a s = u
  cases s.phase with
  | cOpen => cases a with
    | openOk => exact next_relabel f g tr (complete_relabel f g tr { u with conn := true, wrHeld := true } _)
    | openErr => exact next_relabel f g tr (raise_relabel f g tr u _)
    | _ => rfl
  | rWrite => cases a with
    | writeOk =>
      exact next_relabel f g tr
        (issue_relabel f g tr { u with timer := Config.readTimeoutTicks, phase := .rWait } _)
    | writeErr => exact next_relabel f g tr (finishRead_relabel f g tr u _)
    | _ => rfl
  | rWait => cases a with
    | readData bs =>
      simp only [inRWait, takeChunk_eq]
      exact next_relabel f g tr (finishRead_relabel f g tr { u with rxbuf := [] } _)
    | readEnd => exact next_relabel f g tr (finishRead_relabel f g tr u _)
    | readErr => exact next_relabel f g tr (finishRead_relabel f g tr u _)
    | _ => rfl
  | wWrite => cases a with
    | writeOk => exact next_relabel f g tr (complete_relabel f g tr { u with resultBool := true } _)
    | writeErr => exact next_relabel f g tr (complete_relabel f g tr { u with resultBool := false } _)
    | _ => rfl
  | dWrite => cases a <;> rfl
  | dClose => cases a with
    | closeOk => exact next_relabel f g tr (complete_relabel f g tr { u with conn := false } _)
    | closeErr => exact next_relabel f g tr (complete_relabel f g tr { u with conn := false } _)
    | _ => rfl
  | _ => rfl

theorem requireConnected_relabel {k : State → State} (hk : k (s.relabel f g tr) = (k s).relabel f g tr) :
    requireConnected k (s.relabel f g tr) = (requireConnected k s).relabel f g tr := by
  simp only [requireConnected, relabel_fields, hk, raise_relabel]
  split_ifs <;> rfl

/-- Of the commands of the host port, ISCONN alone needs RX_USABLE as it was. -/
theorem exec_relabel {w : HostWord} {i : Instr} (hd : decodeHostWord w = .ok i)
    (hg : i = .isConn → g s.rxUsable = s.rxUsable) :
    exec i (s.relabel f g tr) = mapNext (State.relabel f g tr) (exec i s) := by
  have hconn : (s.relabel f g tr).conn = s.conn := rfl
  rcases decodeHostWord_ok hd with ⟨-, rfl⟩ | ⟨-, rfl⟩ | ⟨-, rfl⟩ | ⟨-, rfl⟩ | ⟨-, rfl⟩ | ⟨-, rfl⟩ <;>
    apply next_relabel
  · -- CONNECT
    rw [hconn]
    split_ifs
    · exact raise_relabel f g tr s _
    · exact issue_relabel f g tr { s with phase := .cOpen } _
  · -- DISCONNECT
    rw [hconn]
    split_ifs
    · exact disableStep_relabel f g tr { s with disableFail := 0#6, idx := 1#3 }
    · exact complete_relabel f g tr s _
  · -- ISCONN
    have hc : (s.relabel f g tr).isConnected = s.isConnected := congrArg (s.conn && ·) (hg rfl)
    rw [hc]
    exact complete_relabel f g tr { s with resultBool := s.isConnected } _
  · -- READPOS
    exact requireConnected_relabel f g tr s (startRead_relabel f g tr s _)
  · -- READALL
    exact requireConnected_relabel f g tr s (startRead_relabel f g tr { s with idx := 1#3 } _)
  · -- WRITEPOS
    exact requireConnected_relabel f g tr s
      (issuePacket_relabel f g tr { s with posc := clamp (requestedPos (hostOpnd w)) } _ _)

/-- Taking a command, if it is not ISCONN or RX_USABLE is as it was. -/
theorem takeCommand_relabel (w : HostWord) (hg : decodeHostWord w = .ok .isConn → g s.rxUsable = s.rxUsable) :
    takeCommand w (s.relabel f g tr) = mapNext (State.relabel f g tr) (takeCommand w s) := by
  unfold takeCommand
  cases hd : decodeHostWord w with
  | ok i =>
    simp only [takeLegal_relabel]
    refine exec_relabel f g tr _ hd fun hi => ?_
    subst hi
    exact hg hd
  | rejected e =>
    refine next_relabel f g tr ?_
    rw [rejectIllegal, takeRejected_relabel]
    exact raise_relabel f g tr _ _

/-- The orchestrator, if it takes no ISCONN or RX_USABLE is as it was. -/
theorem orchestrate_relabel (p : PortIn) (hg : s.phase = .idle → ∀ w, p.cmd = some w →
      decodeHostWord w = .ok .isConn → g s.rxUsable = s.rxUsable) :
    orchestrate p (s.relabel f g tr) = mapNext (State.relabel f g tr) (orchestrate p s) := by
  have hx : expires p.tick (s.relabel f g tr) = expires p.tick s := rfl
  have hr : (s.relabel f g tr).cmdReady = s.cmdReady := rfl
  simp only [orchestrate, hx, hr, relabel_fields, countTick_relabel, takeExpiry_relabel, takeAnswer_relabel]
  cases p.answer with
  | some a =>
    dsimp only
    split_ifs <;> rfl
  | none =>
    dsimp only
    split_ifs with _ hi
    · rfl
    · have hi : s.phase = .idle := by simpa [State.cmdReady, State.busy] using hi
      cases hc : p.cmd with
      | none => rfl
      | some w => exact takeCommand_relabel f g tr s w (hg hi w hc)
    · cases p.cmd <;> rfl

/-- A step under pin records that differ as the states do. -/
theorem stepPins_relabel (p : PortIn) (hg : s.phase = .idle → ∀ w, p.cmd = some w →
      decodeHostWord w = .ok .isConn → g p.rxUsable = p.rxUsable) :
    stepPins { p with regSel := f p.regSel, rxUsable := g p.rxUsable } { s with trace := tr ++ s.trace } =
      mapNext (State.relabel f g tr) (stepPins p s) := by
  unfold stepPins
  split_ifs
  · rfl
  · exact orchestrate_relabel f g tr (sample p s) p hg

end Commutes

/-- Settles O32: another register selected changes REG_SEL alone, and no operation of the step reads it. -/
theorem registerReadHasNoEffect : Obligations.RegisterReadHasNoEffect := by
  unfold Obligations.RegisterReadHasNoEffect
  intro s p rest n t h
  have hs := stepPins_relabel (fun _ => n) id [] { s with inputs := rest } p fun _ _ _ _ => rfl
  have h : stepPins p { s with inputs := rest } = .next t := h
  rw [h] at hs
  exact hs

/-- Settles O49: another level of RX_USABLE changes that level alone, unless an ISCONN reads it. -/
theorem onlyIsConnReadsRxUsable : Obligations.OnlyIsConnReadsRxUsable := by
  unfold Obligations.OnlyIsConnReadsRxUsable
  intro s p rest b t hn h
  have hs := stepPins_relabel id (fun _ => b) [] { s with inputs := rest } p
    fun hi w hw hd => absurd hd (hn hi w hw)
  have h : stepPins p { s with inputs := rest } = .next t := h
  rw [h] at hs
  exact hs

/-- A step from a state with the events `tr` before its trace. -/
theorem step_prependTrace (tr : List Event) (s : State) :
    step { s with trace := tr ++ s.trace } = mapNext (State.relabel id id tr) (step s) := by
  by_cases hi : s.inputs = []
  · rw [step_nil hi, step_nil (s := { s with trace := tr ++ s.trace }) hi]
    rfl
  · obtain ⟨p, rest, hi⟩ := List.exists_cons_of_ne_nil hi
    simp only [step, hi]
    exact stepPins_relabel id id tr { s with inputs := rest } p fun _ _ _ _ => rfl

/-- Settles O48: the step is that from the empty trace, with the old trace put before what it adds. -/
theorem traceIsAppendedToAndNeverRead : Obligations.TraceIsAppendedToAndNeverRead := by
  unfold Obligations.TraceIsAppendedToAndNeverRead
  intro s t tr h
  have hpre (old : List Event) : step { s with trace := old } =
      mapNext (State.relabel id id old) (step { s with trace := [] }) := by
    simpa using step_prependTrace old { s with trace := [] }
  obtain ⟨u, hu, rfl⟩ := mapNext_eq_next ((hpre s.trace).symm.trans h)
  refine ⟨u.trace, rfl, ?_⟩
  rw [hpre tr, hu]
  rfl

/-! ### The command pins of a busy block -/

/-- A busy block does not look at the command pins (R25, R42). -/
theorem orchestrate_busy (p : PortIn) {s : State} (w : Option HostWord) (h : s.phase ≠ .idle) :
    orchestrate { p with cmd := w } s = orchestrate p s := by
  have hr : s.cmdReady = false := by simp [State.cmdReady, State.busy, h]
  simp only [orchestrate, hr]
  cases p.answer with
  | some a => rfl
  | none => cases w <;> cases p.cmd <;> rfl

/-- Settles O37: a busy block's CMD_READY is 0, and only the idle block looks at the command pins. -/
theorem busyBlockTakesNoCommand : Obligations.BusyBlockTakesNoCommand := by
  unfold Obligations.BusyBlockTakesNoCommand
  intro s p rest w h
  simp only [step, stepPins]
  split_ifs
  · rfl
  · exact orchestrate_busy p w h

end Sys2Proof.Machine

/-! ## Which move writes which register (O44, O45, O46, O47)

Each statement is first proved of a move, split by the moves that write the register; every other move keeps it. -/

namespace Sys2Proof.Machine

variable {p : PortIn} {s t : State}

/-! ### The rules of the phases, over the shared operations -/

section Rules

variable (u : State)

@[simp] theorem connectOpened_eq :
    connectOpened u = complete .ok { u with conn := true, wrHeld := true } := rfl

@[simp] theorem connectRefused_eq : connectRefused u = raise .connectFailed u := rfl

@[simp] theorem readRequestWritten_eq : readRequestWritten u =
    issue (.read Config.readMaxLen) { u with timer := Config.readTimeoutTicks, phase := .rWait } := rfl

@[simp] theorem writePosAnswered_eq (ok : Bool) :
    writePosAnswered ok u = complete .ok { u with resultBool := ok } := rfl

@[simp] theorem disableWriteFailed_eq : disableWriteFailed u =
    beginDisableGap { u with disableFail := setMotorBit u.disableFail u.idx true } := rfl

@[simp] theorem closeAnswered_eq (st : Status) : closeAnswered st u = complete st { u with conn := false } := rfl

@[simp] theorem readExpired_eq : readExpired u = finishRead none (tCancel (record .expire u)) := rfl

end Rules

/-! ### CONN and the holds -/

/-- CONN is written by OpenOk and by the outcome of the close (R23, R140). -/
theorem move_conn (h : Move p s t) : (s.phase = .cOpen ∧ p.answer = some .openOk ∧ t.conn = true) ∨
    (s.phase = .dClose ∧ (p.answer = some .closeOk ∨ p.answer = some .closeErr) ∧ t.conn = false) ∨
    (t.conn = s.conn ∧ ¬ (s.phase = .cOpen ∧ p.answer = some .openOk) ∧
      ¬ (s.phase = .dClose ∧ (p.answer = some .closeOk ∨ p.answer = some .closeErr))) := by
  cases h with
  | opened ha hp he => exact .inl ⟨hp, ha, by rw [he]; rfl⟩
  | closed a ha hk hp he => exact .inr (.inl ⟨hp, by simpa [ha] using hk, by rw [he]; rfl⟩)
  | writeAnswered a ha hk hp he => exact .inr (.inr (by simp [he, hp]))
  | readEnded a ha hk hp he => exact .inr (.inr (by simp [he, hp]))
  | _ => exact .inr (.inr (by simp_all))

/-- WR_HELD is set by OpenOk and cleared where the disable gap of motor 6 ends (R26). -/
theorem move_wrHeld (h : Move p s t) (hw : t.wrHeld ≠ s.wrHeld) :
    (s.phase = .cOpen ∧ p.answer = some .openOk ∧ t.wrHeld = true) ∨
      (s.phase = .dGap ∧ t.phase = .dClose ∧ t.wrHeld = false) := by
  cases h with
  | opened ha hp he => exact .inl ⟨hp, ha, by rw [he]; rfl⟩
  | disableEnd _ hp _ he => exact .inr ⟨hp, by rw [he]; rfl, by rw [he]; rfl⟩
  | _ => exact absurd (by simp_all) hw

/-- RD_HELD is set where a read starts and cleared where it ends (R27). -/
theorem move_rdHeld (h : Move p s t) (hr : t.rdHeld ≠ s.rdHeld) :
    (t.rdHeld = true ∧ t.phase = .rWrite ∧ (s.phase = .idle ∨ s.phase = .sGap)) ∨
      (t.rdHeld = false ∧ (s.phase = .rWrite ∨ s.phase = .rWait)) := by
  cases h with
  | readPos w _ hp _ _ _ he
  | readAll w _ hp _ _ _ he => exact .inl ⟨by simp [he], by simp [he], .inl hp⟩
  | sweepNext _ hp _ he => exact .inl ⟨by simp [he], by simp [he], .inr hp⟩
  | readWriteFailed _ hp he => exact .inr ⟨by simp [he], .inl hp⟩
  | readExpired _ hp he => exact .inr ⟨by simp [he], .inr hp⟩
  | chunk bs _ hp _ he
  | readEnded a _ _ hp he => exact .inr ⟨by simp [he], .inr hp⟩
  | _ => exact absurd (by simp_all) hr

/-- Settles O44: a step without reset is a move, and two of them write CONN. -/
theorem onlyOpenAndCloseChangeConn : Obligations.OnlyOpenAndCloseChangeConn := by
  unfold Obligations.OnlyOpenAndCloseChangeConn
  intro s t p rest hi hr h
  exact move_conn (s := s.after p rest) (step_move hi hr h)

/-- Settles O45: a step without reset is a move, and few of them write the holds. -/
theorem holdsChangeOnlyByTheirRules : Obligations.HoldsChangeOnlyByTheirRules := by
  unfold Obligations.HoldsChangeOnlyByTheirRules
  intro s t p rest hi hr h
  have hm := step_move hi hr h
  exact ⟨move_wrHeld (s := s.after p rest) hm, move_rdHeld (s := s.after p rest) hm⟩

/-! ### LAST_STATUS -/

/-- No completion among the events. -/
def NoDone (ev : List Event) : Prop := ∀ st, Event.done st ∉ ev

/-- From `s` to `t` there are events without a completion, and LAST_STATUS is kept. -/
def Silent (s t : State) : Prop := ∃ ev, t.trace = s.trace ++ ev ∧ NoDone ev ∧ t.lastStatus = s.lastStatus

/-- From `s` to `t` there are events, a completion only as the last, and LAST_STATUS is written by that alone. -/
def Reports (s t : State) : Prop :=
  ∃ ev, t.trace = s.trace ++ ev ∧ ((NoDone ev ∧ t.lastStatus = s.lastStatus) ∨
    (t.phase = .idle ∧ ∃ ev', ev = ev' ++ [.done t.lastStatus] ∧ NoDone ev'))

theorem Silent.reports (h : Silent s t) : Reports s t := by
  obtain ⟨ev, ht, hn, hl⟩ := h
  exact ⟨ev, ht, .inl ⟨hn, hl⟩⟩

theorem Silent.complete (h : Silent s t) (st : Status) : Reports s (complete st t) := by
  obtain ⟨ev, ht, hn, -⟩ := h
  exact ⟨ev ++ [.done st], by simp [ht], .inr ⟨rfl, ev, rfl, hn⟩⟩

/-- A read's end completes READPOS and is silent otherwise. -/
theorem Silent.finishRead {u : State} (h : Silent s u) (v : Option (BitVec 16)) : Reports s (finishRead v u) := by
  have hrel : Silent s (releaseRead u) := by
    obtain ⟨ev, ht, hn, hl⟩ := h
    exact ⟨ev ++ [.relRd], by simp [ht], by simpa [NoDone] using hn, hl⟩
  rcases finishRead_cases v u with ⟨-, hf⟩ | ⟨-, hf⟩ | ⟨-, -, hf⟩ <;> rw [hf]
  · exact Silent.complete (t := { releaseRead u with resultPos := posRegister v }) hrel .ok
  · exact Silent.reports (t := storeSweepEntry v (releaseRead u)) hrel
  · exact hrel.reports

/-- Every move reports by a completion at its end, or not at all. -/
theorem move_reports (h : Move p s t) : Reports s t := by
  cases h with
  | connectAgain w _ _ _ _ _ he
  | disconnectNoOp w _ _ _ _ _ he
  | isConn w _ _ _ _ he
  | notConnected w _ _ _ _ he
  | illegal w e _ _ _ _ he
  | sweepEnd _ _ _ he
  | opened _ _ he
  | openFailed _ _ he
  | writeAnswered a _ _ _ he
  | closed a _ _ _ he =>
    subst he
    refine Silent.complete ?_ _
    simp [Silent, NoDone]
  | readExpired _ _ he
  | readWriteFailed _ _ he
  | chunk bs _ _ _ he
  | readEnded a _ _ _ he =>
    subst he
    refine Silent.finishRead ?_ _
    simp [Silent, NoDone]
  | _ =>
    refine Silent.reports ?_
    simp_all [Silent, NoDone]

/-- Settles O46: a step without reset is a move, and every move reports by a completion at its end or not at all. -/
theorem onlyCompletionWritesLastStatus : Obligations.OnlyCompletionWritesLastStatus := by
  unfold Obligations.OnlyCompletionWritesLastStatus
  intro s t p rest hi hr h
  exact move_reports (s := s.after p rest) (step_move hi hr h)

/-! ### The result registers -/

/-- RESULT_BOOL is written by ISCONN and where a WRITEPOS ends (R29). -/
theorem move_resultBool (h : Move p s t) (hb : t.resultBool ≠ s.resultBool) : t.phase = .idle ∧
    (s.phase = .wWrite ∨ (s.phase = .idle ∧ ∃ w, p.cmd = some w ∧ decodeHostWord w = .ok .isConn)) := by
  cases h with
  | isConn w _ hp hw hd he => exact ⟨by rw [he]; rfl, .inr ⟨hp, w, hw, hd⟩⟩
  | writeAnswered a _ _ hp he => exact ⟨by rw [he]; rfl, .inl hp⟩
  | _ => exact absurd (by simp_all) hb

/-- DISABLE_FAIL is written by a failed torque-disable write and cleared where DISCONNECT is taken (R32). -/
theorem move_disableFail (h : Move p s t) (hf : t.disableFail ≠ s.disableFail) :
    (s.phase = .dWrite ∧ p.answer = some .writeErr) ∨
      (s.phase = .idle ∧ t.disableFail = 0#6 ∧ ∃ w, p.cmd = some w ∧ decodeHostWord w = .ok .disconnect) := by
  cases h with
  | disableFailed ha hp he => exact .inl ⟨hp, ha⟩
  | disconnect w _ hp hw hd _ he => exact .inr ⟨hp, by rw [he]; rfl, w, hw, hd⟩
  | _ => exact absurd (by simp_all) hf

/-- RESULT_POS and the sweep registers are the same. -/
def SameReadResults (s t : State) : Prop :=
  t.resultPos = s.resultPos ∧ t.sweepValid = s.sweepValid ∧ t.sweepPos = s.sweepPos

/-- A read ends under the command and the motor of `s`, its results so far untouched. -/
def EndsRead (s t : State) : Prop :=
  ∃ v u, t = finishRead v u ∧ u.cmdOp = s.cmdOp ∧ u.idx = s.idx ∧ SameReadResults s u

/-- RESULT_POS and the sweep registers are written where a read ends alone (R30, R31). -/
theorem move_readResults (h : Move p s t) :
    (EndsRead s t ∧ (s.phase = .rWrite ∨ s.phase = .rWait)) ∨ SameReadResults s t := by
  cases h with
  | readWriteFailed _ hp he => exact .inl ⟨⟨_, _, he, by simp [SameReadResults]⟩, .inl hp⟩
  | readExpired _ hp he
  | chunk bs _ hp _ he
  | readEnded a _ _ hp he => exact .inl ⟨⟨_, _, he, by simp [SameReadResults]⟩, .inr hp⟩
  | _ => right; simp_all [SameReadResults]

/-- READPOS's read ends in RESULT_POS and IDLE (R30). -/
theorem EndsRead.resultPos (h : EndsRead s t) (hc : t.resultPos ≠ s.resultPos) :
    t.phase = .idle ∧ s.cmdOp = opReadPos := by
  obtain ⟨v, u, rfl, ho, -, hp, -, -⟩ := h
  rcases finishRead_cases v u with ⟨h3, hf⟩ | ⟨-, hf⟩ | ⟨-, -, hf⟩ <;> rw [hf] at hc ⊢
  · exact ⟨rfl, ho.symm.trans h3⟩
  · exact absurd hp hc
  · exact absurd hp hc

/-- READALL's read of a motor ends in the sweep registers and S_GAP (R31). -/
theorem EndsRead.sweep (h : EndsRead s t) (hc : t.sweepValid ≠ s.sweepValid ∨ t.sweepPos ≠ s.sweepPos) :
    t.phase = .sGap ∧ s.cmdOp = opReadAll := by
  obtain ⟨v, u, rfl, ho, -, -, hv, hp⟩ := h
  rcases finishRead_cases v u with ⟨-, hf⟩ | ⟨h4, hf⟩ | ⟨-, -, hf⟩ <;> rw [hf] at hc ⊢
  · exact absurd hc (by simp [hv, hp])
  · exact ⟨rfl, ho.symm.trans h4⟩
  · exact absurd hc (by simp [hv, hp])

/-- A read's end leaves the sweep entries of the other motors (R31). -/
theorem EndsRead.sweep_other (h : EndsRead s t) (i : Fin 6) (hi : i.val + 1 ≠ s.idx.toNat) :
    t.sweepValid.getLsbD i = s.sweepValid.getLsbD i ∧ t.sweepPos[i] = s.sweepPos[i] := by
  obtain ⟨v, u, rfl, -, hx, -, hv, hp⟩ := h
  rcases finishRead_cases v u with ⟨-, hf⟩ | ⟨-, hf⟩ | ⟨-, -, hf⟩ <;> rw [hf]
  · exact ⟨congrArg (·.getLsbD i) hv, congrArg (·[i]) hp⟩
  · show (setMotorBit u.sweepValid u.idx v.isSome).getLsbD i = _ ∧
      (setMotorPos u.sweepPos u.idx (v.getD 0#16))[i] = _
    rw [setMotorBit_get, setMotorPos_get, hx, if_neg hi, if_neg hi, hv, hp]
    exact ⟨rfl, rfl⟩
  · exact ⟨congrArg (·.getLsbD i) hv, congrArg (·[i]) hp⟩

/-- Settles O47: a step without reset is a move; the end of a read, four others and no more write these registers. -/
theorem resultRegistersHaveTheirWriters : Obligations.ResultRegistersHaveTheirWriters := by
  unfold Obligations.ResultRegistersHaveTheirWriters
  intro s t p rest hi hr h
  have hm := step_move hi hr h
  refine ⟨move_resultBool (s := s.after p rest) hm, ?_, ?_, ?_, move_disableFail (s := s.after p rest) hm⟩ <;>
    rcases move_readResults hm with ⟨he, hp⟩ | ⟨hpos, hv, hps⟩
  · intro hc
    obtain ⟨hidle, ho⟩ := he.resultPos hc
    exact ⟨hidle, ho, hp⟩
  · exact fun hc => absurd hpos hc
  · intro hc
    obtain ⟨hgap, ho⟩ := he.sweep hc
    exact ⟨hgap, ho, hp⟩
  · exact fun hc => absurd hc (by simp [hv, hps])
  · exact fun i hi => he.sweep_other i hi
  · exact fun i _ => ⟨congrArg (·.getLsbD i) hv, congrArg (·[i]) hps⟩

end Sys2Proof.Machine

/-! ## The registers as the host reads them, and the step that takes a command (O27, O28, O29, O33) -/

namespace Sys2Proof.Machine

/-! ### STATUS and the register-read port -/

/-- The fields of a word that is put together as STATUS is (R21). -/
theorem statusWord_fields : ∀ (rd wr busy isc conn : Bool) (code : BitVec 4),
    let w : BitVec 16 := 0#7 ++ BitVec.ofBool rd ++ BitVec.ofBool wr ++ BitVec.ofBool busy ++ BitVec.ofBool isc ++
      BitVec.ofBool conn ++ code
    w.extractLsb' 0 4 = code ∧ w.getLsbD 4 = conn ∧ w.getLsbD 5 = isc ∧ w.getLsbD 6 = busy ∧ w.getLsbD 7 = wr ∧
      w.getLsbD 8 = rd ∧ w.extractLsb' 9 7 = 0#7 := by
  decide

/-- Settles O27: STATUS is its fields side by side, the low four bits the code of LAST_STATUS. -/
theorem statusLayout : Obligations.StatusLayout := by
  unfold Obligations.StatusLayout
  intro s
  obtain ⟨hcode, hbits⟩ :=
    statusWord_fields s.rdHeld s.wrHeld s.busy s.isConnected s.conn s.lastStatus.code
  have hst {st : Status} (h : s.lastStatus = st) : s.status.extractLsb' 0 4 = st.code := h ▸ hcode
  exact ⟨hst, hst, hst, hst, hst, hst, hbits⟩

/-- Settles O28: the phases' values, one by one. -/
theorem phaseCodesAreTheTable : Obligations.PhaseCodesAreTheTable := by
  unfold Obligations.PhaseCodesAreTheTable
  rfl

/-- A register number of no register reads as 0 (R21, R42). -/
theorem readReg_of_ge (s : State) {n : BitVec 8} (h : 11 ≤ n.toNat) : s.readReg n = 0#32 := by
  unfold State.readReg
  split
  case h_12 => rfl
  all_goals omega

/-- Settles O29: each register in its own row of the map, zero-extended. -/
theorem registerReadMap : Obligations.RegisterReadMap := by
  unfold Obligations.RegisterReadMap
  intro s
  refine ⟨?_, ?_, ?_, ?_, fun i => ?_, ?_, fun n h => readReg_of_ge s h⟩
  · exact BitVec.toNat_setWidth_of_le (by decide)
  · exact (BitVec.toNat_setWidth_of_le (by decide)).trans (BitVec.toNat_ofBool _)
  · exact BitVec.toNat_setWidth_of_le (by decide)
  · exact BitVec.toNat_setWidth_of_le (by decide)
  · match i with
    | 0 | 1 | 2 | 3 | 4 | 5 =>
      exact BitVec.toNat_setWidth_of_le (by decide)
  · exact BitVec.toNat_setWidth_of_le (by decide)

/-! ### Taking a command -/

/-- The commands that their own check rejects, and the lifecycle state in which it does (R203, R206). -/
theorem rejectedAtTake_iff (i : Instr) (s : State) : rejectedAtTake i s = true ↔
    (s.conn = true ∧ ∃ baud, i = .connect baud) ∨
      (s.conn = false ∧ ((∃ id, i = .readPos id) ∨ i = .readAll ∨ ∃ id opnd, i = .writePos id opnd)) := by
  cases i <;> simp [rejectedAtTake]

/-- Settles O33: the idle block decodes the word and runs its instruction; the check decides whether it is latched. -/
theorem stepRunsTheOfferedCommand : Obligations.StepRunsTheOfferedCommand := by
  unfold Obligations.StepRunsTheOfferedCommand
  intro s p rest w i ⟨hi, hr, ha, hc, hp⟩ hd
  have hs : step s = exec i (takeLegal i w (s.after p rest)) := by
    rw [step_pins hi hr, orchestrate_command (s := s.after p rest) ha hc hp, takeCommand_ok _ hd]
  have hrej := rejectedAtTake_iff i (s.after p rest)
  constructor
  · intro h
    rw [hs, takeLegal_rejected w (hrej.2 h)]
    rfl
  · intro h
    rw [hs, takeLegal_run w (by simpa using mt hrej.1 h)]
    rfl

end Sys2Proof.Machine

/-! ## Codes: the decoder against the encoder, the packets' bytes, the assembler (O21, O17, O22, O23, O24, O26) -/

namespace Sys2Proof.Machine

/-! ### The host word -/

/-- The decoder of an assembled word looks up its command code (R89, R90). -/
theorem decodeHostWord_hostWordOf (op : BitVec 4) (id : Byte) (opnd : BitVec 32) :
    decodeHostWord (hostWordOf op id opnd) = decodeHostOp op.toNat id opnd := by
  obtain ⟨hop, hrsv0, hid, hrsv1, hopnd⟩ := hostWordOf_fields op id opnd
  simp [decodeHostWord, hop, hrsv0, hid, hrsv1, hopnd]

/-- An assembled word with its low byte, OP under RSV0, in one piece (R89). -/
theorem hostWordOf_eq_append (op : BitVec 4) (id : Byte) (opnd : BitVec 32) :
    hostWordOf op id opnd = opnd ++ 0#16 ++ id ++ (0#4 ++ op) := by
  apply BitVec.eq_of_toNat_eq
  simp only [hostWordOf_toNat, append_toNat_add, BitVec.toNat_ofNat]
  omega

/-- A command's code is one of six, and the other codes are reserved (R90). -/
theorem decodeHostOp_rejected_iff (op : Nat) (id : Byte) (opnd : BitVec 32) :
    (∃ e, decodeHostOp op id opnd = .rejected e) ↔ 6 ≤ op := by
  match op with
  | 0 | 1 | 2 | 3 | 4 | 5 => simp [decodeHostOp]
  | n + 6 => simp [decodeHostOp]

/-- The words the decoder rejects, by their fields (R93). -/
theorem decodeHostWord_rejected_iff (w : HostWord) : (∃ e, decodeHostWord w = .rejected e) ↔
    6 ≤ (hostOp w).toNat ∨ hostRsv0 w ≠ 0#4 ∨ hostRsv1 w ≠ 0#16 := by
  by_cases h0 : hostRsv0 w = 0#4
  · by_cases h1 : hostRsv1 w = 0#16
    · simp [decodeHostWord, h0, h1, decodeHostOp_rejected_iff]
    · simp [decodeHostWord, h0, h1]
  · simp [decodeHostWord, h0]

/-- The fields of a host word as numbers (R89). -/
theorem hostFields_toNat (w : HostWord) : (hostOp w).toNat = w.toNat % 16 ∧
    (hostRsv0 w).toNat = w.toNat / 16 % 16 ∧ (hostRsv1 w).toNat = w.toNat / 65536 % 65536 := by
  simp [hostOp, hostRsv0, hostRsv1, Nat.shiftRight_eq_div_pow]

/-- Settles O23: the fields that make a word illegal, as numbers. -/
theorem illegalHostWords : Obligations.IllegalHostWords := by
  unfold Obligations.IllegalHostWords
  intro w
  obtain ⟨hop, hrsv0, hrsv1⟩ := hostFields_toNat w
  rw [decodeHostWord_rejected_iff, ← hop, ← hrsv0, ← hrsv1, BitVec.toNat_ne, BitVec.toNat_ne]
  rfl

/-- Settles O24: the words are assembled words with their low byte in one piece. -/
theorem hostWordsDecodeByTheirFields : Obligations.HostWordsDecodeByTheirFields := by
  unfold Obligations.HostWordsDecodeByTheirFields
  intro id opnd
  have hdec (op : BitVec 4) : decodeHostWord (opnd ++ 0#16 ++ id ++ (0#4 ++ op)) = decodeHostOp op.toNat id opnd := by
    rw [← hostWordOf_eq_append, decodeHostWord_hostWordOf]
  exact ⟨hdec opConnect, hdec opDisconnect, hdec opIsConn, hdec opReadPos, hdec opReadAll, hdec opWritePos⟩

/-! ### The request packets -/

/-- A position of 12 bits is what the clamp makes of it (R85, R112). -/
theorem setWidth_clamp {pos : BitVec 16} (h : pos.toNat ≤ Config.posMax) :
    (clamp pos.toNat).setWidth 16 = pos := by
  have h : pos.toNat ≤ 4095 := h
  have hc := clamp_toNat (p := pos.toNat) (by omega) (by omega)
  apply BitVec.eq_of_toNat_eq
  rw [BitVec.toNat_setWidth]
  omega

theorem decodeRequest_encReadPosition (id : Byte) : decodeRequest (encReadPosition id) = .ok (.reqReadPos id) :=
  decodeRequest_frame (by simp [matchBody])

theorem decodeRequest_encWritePosition (id : Byte) (p : Int) :
    decodeRequest (encWritePosition id p) = .ok (.reqWritePos id ((clamp p).setWidth 16)) :=
  decodeRequest_frame (by simp [matchBody, posHigh_le, posHigh_append_posLow])

theorem decodeRequest_encWriteTorqueEnable (id : Byte) (enabled : Bool) :
    decodeRequest (encWriteTorqueEnable id enabled) = .ok (.reqWriteTorque id enabled) :=
  decodeRequest_frame (by cases enabled <;> simp [matchBody, Config.instrRead, Config.instrWrite])

/-- Settles O21: a host command by its code and fields, a request by its body, a chunk by its length. -/
theorem decodeInvertsEncode : Obligations.DecodeInvertsEncode := by
  unfold Obligations.DecodeInvertsEncode
  intro i hwf
  cases i with
  | connect _ | disconnect | isConn | readPos _ | readAll | writePos _ _ => exact decodeHostWord_hostWordOf ..
  | reqReadPos id => exact decodeRequest_encReadPosition id
  | reqWritePos id pos =>
    have hpos := setWidth_clamp (of_decide_eq_true hwf)
    exact (decodeRequest_encWritePosition id pos.toNat).trans (by rw [hpos])
  | reqWriteTorque id enabled => exact decodeRequest_encWriteTorqueEnable id enabled
  | respPos chunk => exact decodeResponse_long (of_decide_eq_true hwf)

/-- A request is recognised behind two sentinels, by what stands before the last byte (R81). -/
theorem matchRequest_some {bs : List Byte} {i : Instr} (h : matchRequest bs = some i) :
    ∃ rest, bs = Config.sync :: Config.sync :: rest ∧ matchBody rest.dropLast = some i := by
  unfold matchRequest at h
  split at h
  · split_ifs at h with hsync
    obtain ⟨rfl, rfl⟩ := hsync
    exact ⟨_, rfl, h⟩
  · cases h

/-- A byte list that decodes to a request is the frame of a body that is recognised as that request (R81, R83). -/
theorem decodeRequest_ok {bs : List Byte} {i : Instr} (h : decodeRequest bs = .ok i) :
    ∃ body, bs = frame body ∧ matchBody body = some i := by
  unfold decodeRequest at h
  split at h
  · cases h
  · rename_i j hm
    split_ifs at h with hlast
    cases h
    obtain ⟨rest, rfl, hbody⟩ := matchRequest_some hm
    refine ⟨rest.dropLast, ?_, hbody⟩
    cases rest with
    | nil => cases hbody
    | cons b rest =>
      have hrest := List.dropLast_append_getLast? _ (by simpa using hlast)
      simpa [frame] using hrest.symm

/-- The position of a write request has 12 bits, and the codec gives back its two bytes (R85, R114). -/
theorem posBytes_clamp_append {lo hi : Byte} (h : hi ≤ 0x0F#8) : (hi ++ lo).toNat ≤ Config.posMax ∧
    posLow (clamp (hi ++ lo).toNat) = lo ∧ posHigh (clamp (hi ++ lo).toNat) = hi := by
  have hmax : (hi ++ lo).toNat ≤ Config.posMax := by
    have hhi : hi.toNat ≤ 15 := h
    have hlo : lo.toNat < 256 := lo.isLt
    rw [append_toNat_add, Config.posMax]
    omega
  have hbytes := (posHigh_append_posLow (clamp (hi ++ lo).toNat)).trans (setWidth_clamp hmax)
  have hlow := congrArg (BitVec.extractLsb' 0 8) hbytes
  have hhigh := congrArg (BitVec.extractLsb' 8 8) hbytes
  rw [BitVec.extractLsb'_append_eq_right, BitVec.extractLsb'_append_eq_right] at hlow
  rw [BitVec.extractLsb'_append_eq_left, BitVec.extractLsb'_append_eq_left] at hhigh
  exact ⟨hmax, hlow, hhigh⟩

/-- Only the body that an instruction is encoded with is recognised as that instruction (R84 to R86). -/
theorem matchBody_some {body : List Byte} {i : Instr} (h : matchBody body = some i) :
    i.wf = true ∧ encode i = .request (frame body) := by
  unfold matchBody at h
  split at h
  · split_ifs at h with hread htorque
    · cases h
      obtain ⟨rfl, rfl, rfl, rfl⟩ := hread
      exact ⟨rfl, rfl⟩
    · cases h
      obtain ⟨rfl, rfl, rfl, rfl | rfl⟩ := htorque
      · exact ⟨rfl, rfl⟩
      · exact ⟨rfl, rfl⟩
  · split_ifs at h with hwrite
    cases h
    obtain ⟨rfl, rfl, rfl, hhi⟩ := hwrite
    obtain ⟨hmax, hlow, hhigh⟩ := posBytes_clamp_append hhi
    exact ⟨decide_eq_true hmax, by rw [encode, encWritePosition, hlow, hhigh]⟩
  · cases h

/-- Settles O22: the packet is the frame of the body that was recognised, and that body is the instruction's. -/
theorem requestDecodesOnlyFromItsPacket : Obligations.RequestDecodesOnlyFromItsPacket := by
  unfold Obligations.RequestDecodesOnlyFromItsPacket
  intro bs i h
  obtain ⟨body, rfl, hm⟩ := decodeRequest_ok h
  exact matchBody_some hm

/-! ### The bytes of the requests -/

/-- The checksum is 0xFF less the sum of the body's bytes in 8 bits (R110, R111). -/
theorem checksum_eq_sub_sum (body : List Byte) : checksum body = 0xFF#8 - body.sum := by
  have hsum : BitVec.ofNat 8 (body.map BitVec.toNat).sum = body.sum := by
    induction body with
    | nil => rfl
    | cons b body ih => rw [List.map_cons, List.sum_cons, List.sum_cons, BitVec.ofNat_add, ih, BitVec.ofNat_toNat,
        BitVec.setWidth_eq]
  rw [checksum, hsum, ← BitVec.allOnes_sub_eq_not]
  rfl

/-- The high byte is the upper four bits of the position under a zero nibble (R92). -/
theorem posHigh_eq_append (c : BitVec 12) : posHigh c = 0#4 ++ c.extractLsb' 8 4 := by
  rw [posHigh, BitVec.setWidth_eq_append (by decide)]
  rfl

/-- A frame's bytes, by the sum of its body (R81, R111). -/
theorem frame_of_sum {body : List Byte} {n : Byte} (h : body.sum = n) :
    frame body = [0xFF#8, 0xFF#8] ++ body ++ [0xFF#8 - n] := by
  rw [frame, checksum_eq_sub_sum, h]
  rfl

/-- Settles O17: each packet is the frame of its shape's body, and the constants of the body add up to one number. -/
theorem requestBytesAreTheShapes : Obligations.RequestBytesAreTheShapes := by
  unfold Obligations.RequestBytesAreTheShapes
  refine ⟨fun id => ?_, fun id p => ?_, fun id en => ?_⟩
  · have hsum : [id, 0x04#8, 0x02#8, 0x38#8, 0x02#8].sum = id + 0x40#8 := by
      simp only [List.sum_cons, List.sum_nil]
      bv_omega
    exact frame_of_sum hsum
  · rw [← posHigh_eq_append, ← posLow]
    have hsum : [id, 0x05#8, 0x03#8, 0x2A#8, posLow (clamp p), posHigh (clamp p)].sum =
        id + 0x32#8 + posLow (clamp p) + posHigh (clamp p) := by
      simp only [List.sum_cons, List.sum_nil]
      bv_omega
    exact frame_of_sum hsum
  · have hsum : [id, 0x04#8, 0x03#8, 0x28#8, if en then 0x01#8 else 0x00#8].sum =
        id + 0x2F#8 + if en then 0x01#8 else 0x00#8 := by
      simp only [List.sum_cons, List.sum_nil]
      bv_omega
    exact frame_of_sum hsum

/-! ### The assembler -/

theorem idOk_iff (id : Int) : Line.idOk id = true ↔ 0 ≤ id ∧ id < 256 := by
  rw [Line.idOk, Bool.and_eq_true, decide_eq_true_eq, decide_eq_true_eq]
  omega

theorem wf_connect_iff (baud : Int) : Line.wf (.connect baud) = true ↔ 0 ≤ baud ∧ baud < 4294967296 := by
  simp [Line.wf]

theorem wf_writePos_iff (id pos : Int) : Line.wf (.writePos id pos) = true ↔
    (0 ≤ id ∧ id < 256) ∧ -2147483648 ≤ pos ∧ pos < 2147483648 := by
  simp [Line.wf, idOk_iff]

/-- A line with an operand out of its range has no word (R95). -/
theorem assembleLine_of_not_wf {l : Line} (h : ¬ l.wf = true) : assembleLine l = none := if_neg h

/-- A line with its operands in range has the word of its instruction (R95). -/
theorem assembleLine_of_wf {l : Line} (h : l.wf = true) : assembleLine l = codeWord? (encode (lineInstr l)) := if_pos h

/-- An operand that fits its field is not changed by the cut to it (R95). -/
theorem ofInt_toNat_of_fits {n : Nat} {x : Int} (h0 : 0 ≤ x) (h1 : x < (2 ^ n : Nat)) :
    ((BitVec.ofInt n x).toNat : Int) = x := by
  rw [BitVec.toNat_ofInt, Int.emod_eq_of_lt h0 h1, Int.toNat_of_nonneg h0]

/-- Settles O26: a line assembles exactly if it is well formed, and its word is then assembled from fields that hold the
operands unchanged. -/
theorem assembledLinesDecode : Obligations.AssembledLinesDecode := by
  unfold Obligations.AssembledLinesDecode
  refine ⟨fun baud => ⟨fun hout => ?_, fun h0 h1 => ?_⟩, ⟨rfl, rfl⟩, ⟨rfl, rfl⟩,
    fun id => ⟨fun hout => ?_, fun h0 h1 => ?_⟩, ⟨rfl, rfl⟩,
    fun id pos => ⟨fun hout => ?_, fun h0 h1 hp0 hp1 => ?_⟩⟩
  · exact assembleLine_of_not_wf (by rw [wf_connect_iff]; omega)
  · have hbaud : ((BitVec.ofInt 32 baud).toNat : Int) = baud := ofInt_toNat_of_fits h0 h1
    refine ⟨hostWordOf opConnect 0#8 (BitVec.ofInt 32 baud), _, assembleLine_of_wf ((wf_connect_iff baud).2 ⟨h0, h1⟩),
      ?_, decodeHostWord_hostWordOf .., hbaud⟩
    simp [hostWordOf_toNat, opConnect, hbaud, -BitVec.toNat_ofInt]
  · exact assembleLine_of_not_wf (l := .readPos id) ((idOk_iff id).not.2 (by omega))
  · have hid : ((BitVec.ofInt 8 id).toNat : Int) = id := ofInt_toNat_of_fits h0 h1
    refine ⟨hostWordOf opReadPos (BitVec.ofInt 8 id) 0#32, _,
      assembleLine_of_wf (l := .readPos id) ((idOk_iff id).2 ⟨h0, h1⟩), ?_, decodeHostWord_hostWordOf .., hid⟩
    simp [hostWordOf_toNat, opReadPos, hid, -BitVec.toNat_ofInt]
  · exact assembleLine_of_not_wf (by rw [wf_writePos_iff]; omega)
  · exact ⟨hostWordOf opWritePos (BitVec.ofInt 8 id) (BitVec.ofInt 32 pos), _, _,
      assembleLine_of_wf ((wf_writePos_iff id pos).2 ⟨⟨h0, h1⟩, hp0, hp1⟩), hostWordOf_eq_append ..,
      decodeHostWord_hostWordOf .., ofInt_toNat_of_fits h0 h1, BitVec.toInt_ofInt_eq_self (by decide) hp0 hp1⟩

end Sys2Proof.Machine

/-! ## The packets on the port: what is written, and what is read of a response (O50, O51) -/

namespace Sys2Proof.Machine

variable {p : PortIn} {s t : State}

/-! ### The writes of a step -/

/-- A packet the block may write (R94, R115): a read or a write of a position, or the torque-disable of a motor. -/
def BlockWrites (b : List Byte) : Prop :=
  (∃ id, b = encReadPosition id) ∨ (∃ id q, b = encWritePosition id q) ∨
    ∃ i : Fin 6, b = encWriteTorqueEnable (BitVec.ofNat 8 (i + 1)) false

/-- From `s` to `t` there are events, and every write among them is of a packet the block may write. -/
def WritesOnlyRequests (s t : State) : Prop :=
  ∃ ev, t.trace = s.trace ++ ev ∧ ∀ b, .request (.write b) ∈ ev → BlockWrites b

/-- The torque-disable of a number from 1 to 6 is one the block may write. -/
theorem blockWrites_disable {i : BitVec 3} (h1 : 1#3 ≤ i) (h6 : i ≤ 6#3) :
    BlockWrites (encWriteTorqueEnable (i.setWidth 8) false) := by
  have h1 : 1 ≤ i.toNat := h1
  have h6 : i.toNat ≤ 6 := h6
  refine .inr (.inr ⟨⟨i.toNat - 1, by omega⟩, ?_⟩)
  rw [Nat.sub_add_cancel h1, BitVec.ofNat_toNat]

/-- A read's end writes nothing. -/
theorem WritesOnlyRequests.finishRead {u : State} (h : WritesOnlyRequests s u) (v : Option (BitVec 16)) :
    WritesOnlyRequests s (finishRead v u) := by
  obtain ⟨ev, ht, hw⟩ := h
  rcases finishRead_cases v u with ⟨-, hf⟩ | ⟨-, hf⟩ | ⟨-, -, hf⟩ <;> rw [hf]
  · exact ⟨ev ++ [.relRd, .done .ok], by simp [ht], by simpa using hw⟩
  · exact ⟨ev ++ [.relRd], by simp [ht], by simpa using hw⟩
  · exact ⟨ev ++ [.relRd], by simp [ht], by simpa using hw⟩

/-- Every move writes only packets the block may write. -/
theorem move_writes (h : Move p s t) : WritesOnlyRequests s t := by
  cases h with
  | readPos w _ _ _ _ _ he
  | readAll w _ _ _ _ _ he
  | sweepNext _ _ _ he
  | writePos w _ _ _ _ _ he =>
    subst he
    simp [WritesOnlyRequests, BlockWrites]
  | disconnect w _ _ _ _ _ he =>
    subst he
    simpa [WritesOnlyRequests] using blockWrites_disable (i := 1#3) (by decide) (by decide)
  | disableNext _ _ hi he =>
    subst he
    simpa [WritesOnlyRequests] using blockWrites_disable (i := s.idx + 1#3) (by bv_omega) (by bv_omega)
  | readExpired _ _ he
  | readWriteFailed _ _ he
  | chunk bs _ _ _ he
  | readEnded a _ _ _ he =>
    subst he
    refine WritesOnlyRequests.finishRead ?_ _
    simp [WritesOnlyRequests]
  | _ => simp_all [WritesOnlyRequests]

/-- Settles O50: a step does nothing, resets, or is a move, and no move writes another packet. That the motor is 1 to 6
follows from the move alone, so the invariant is not used. -/
theorem everyWriteIsARequestOfTheCodec : Obligations.EveryWriteIsARequestOfTheCodec := by
  unfold Obligations.EveryWriteIsARequestOfTheCodec
  intro s t _ h
  cases hi : s.inputs with
  | nil =>
    rw [step_nil hi] at h
    cases h
    exact ⟨[], by simp⟩
  | cons p rest =>
    cases hr : p.reset with
    | true =>
      rw [step_reset hi hr] at h
      cases h
      exact ⟨[], by simp [resetByPin_eq]⟩
    | false => exact move_writes (s := s.after p rest) (step_move hi hr h)

/-! ### The chunk a read takes -/

/-- A read's end does not look at the trace. -/
theorem finishRead_otherTrace (v : Option (BitVec 16)) (s : State) (tr : List Event) :
    ∃ tr', finishRead v { s with trace := tr } = { finishRead v s with trace := tr' } := by
  rcases finishRead_cases v s with ⟨h, hf⟩ | ⟨h, hf⟩ | ⟨h, h', hf⟩ <;> rw [hf]
  · exact ⟨_, finishRead_readPos v (s := { s with trace := tr }) h⟩
  · exact ⟨_, finishRead_readAll v (s := { s with trace := tr }) h⟩
  · exact ⟨_, finishRead_other v (s := { s with trace := tr }) h h'⟩

/-- Taking either of two chunks that the parser reads alike gives the same state, but for the trace. -/
theorem takeAnswer_sameData {c d : List Byte} (hp : s.phase = .rWait)
    (hcd : decodePositionResponse (some c) = decodePositionResponse (some d))
    (h : takeAnswer (.readData c) s = .next t) :
    ∃ tr, takeAnswer (.readData d) s = .next { t with trace := tr } := by
  have htake (bs : List Byte) : takeAnswer (.readData bs) s =
      .next (finishRead (decodePositionResponse (some bs)) { takeOutcome (.readData bs) s with rxbuf := [] }) := by
    simp only [takeAnswer, hp, inRWait, takeChunk_eq]
  rw [htake, hcd] at h
  cases h
  obtain ⟨tr, htr⟩ := finishRead_otherTrace (decodePositionResponse (some d))
    { takeOutcome (.readData c) s with rxbuf := [] } (takeOutcome (.readData d) s).trace
  exact ⟨tr, (htake d).trans (congrArg _ htr)⟩

/-- On an outcome that fits, a deadline that wins the tie is taken, and else the outcome (R172). -/
theorem orchestrate_fittingAnswer {a : Answer} (p : PortIn) (hf : a.fits s.req = true) :
    orchestrate { p with answer := some a } s =
      if expires p.tick s && !p.answerWins then .next (takeExpiry (countTick p.tick s))
      else takeAnswer a (countTick p.tick s) := by
  simp only [orchestrate, hf, if_true]

/-- A step on a given outcome is reset or the orchestrator's, on the same sampled state whatever the outcome is. -/
theorem step_givenAnswer (s : State) (p : PortIn) (rest : List PortIn) (a : Answer) :
    step { s with inputs := { p with answer := some a } :: rest } =
      if p.reset then .next (resetByPin (s.after p rest))
      else orchestrate { p with answer := some a } (s.after p rest) :=
  step_cons (s := { s with inputs := { p with answer := some a } :: rest }) (p := { p with answer := some a }) rfl

/-- Settles O51: with reset or at a deadline that wins neither chunk is taken, and else the parser reads both alike. -/
theorem otherResponseBytesDoNotMatter : Obligations.OtherResponseBytesDoNotMatter := by
  unfold Obligations.OtherResponseBytesDoNotMatter
  intro s p rest n c d t hp hq hc hd hcn hdn h5 h6 h
  have hcd : decodePositionResponse (some c) = decodePositionResponse (some d) := by
    rw [decodePositionResponse_long hc, decodePositionResponse_long hd, h5, h6]
  have hfit {bs : List Byte} (h8 : 8 ≤ bs.length) (hn : bs.length ≤ n) :
      (Answer.readData bs).fits (s.after p rest).req = true := by
    have hreq : (s.after p rest).req = some (.read n) := hq
    rw [hreq, fits_read]
    exact .inr (.inr ⟨bs, rfl, by omega, hn⟩)
  rw [step_givenAnswer, orchestrate_fittingAnswer p (hfit hc hcn)] at h
  rw [step_givenAnswer, orchestrate_fittingAnswer p (hfit hd hdn)]
  split_ifs at h ⊢
  · exact ⟨t.trace, h⟩
  · exact ⟨t.trace, h⟩
  · exact takeAnswer_sameData (by simpa using hp) hcd h

end Sys2Proof.Machine

/-! ## The codec's own laws and the meanings of the wire rows (O12, O13, O15, O16, O18, O19, O20) -/

namespace Sys2Proof.Machine

/-! ### The checksum and the frame -/

/-- Settles O15: on 8 bits the complement of a number is 255 less it. -/
theorem checksumIsComplementOfByteSum : Obligations.ChecksumIsComplementOfByteSum := by
  unfold Obligations.ChecksumIsComplementOfByteSum
  intro body
  rw [checksum, BitVec.toNat_not, BitVec.toNat_ofNat]

/-- Bytes 2 to n-2 of a frame of n bytes are its body, the range given by a length (R81). -/
theorem frame_body_take (body : List Byte) : ((frame body).drop 2).take ((frame body).length - 3) = body := by
  have hlen : (frame body).length - 3 = ((frame body).drop 2).length - 1 := by
    rw [List.length_drop]
    omega
  rw [hlen, ← List.dropLast_eq_take, frame_body]

/-- A frame is self-consistent if its length byte counts the bytes of the body after it and the checksum (R82, R118). -/
theorem frame_selfConsistent {id len : Byte} {rest : List Byte} (hlen : len.toNat = rest.length + 1) :
    let p := frame (id :: len :: rest)
    p.getLast? = some (checksum ((p.drop 2).take (p.length - 3))) ∧ p.take 2 = [0xFF#8, 0xFF#8] ∧
      (p.getD 3 0#8).toNat = p.length - 4 := by
  refine ⟨?_, rfl, ?_⟩
  · rw [frame_body_take, frame_getLast]
  · rw [frame_length]
    exact hlen

/-- Settles O16: each request is a frame, and its length byte counts what follows it. -/
theorem requestsAreSelfConsistent : Obligations.RequestsAreSelfConsistent := by
  unfold Obligations.RequestsAreSelfConsistent
  rintro p (⟨id, rfl⟩ | ⟨id, q, rfl⟩ | ⟨id, en, rfl⟩)
  · exact frame_selfConsistent rfl
  · exact frame_selfConsistent rfl
  · exact frame_selfConsistent rfl

/-! ### Positions and the parser -/

/-- Settles O18, by the laws of the clamp, one for each range. -/
theorem clampLimitsEveryPosition : Obligations.ClampLimitsEveryPosition := by
  unfold Obligations.ClampLimitsEveryPosition
  exact fun p => ⟨clamp_of_neg, clamp_of_gt, clamp_toNat, clamp_idem p⟩

/-- Settles O19: the parser's two cases by the length, and bytes 6 and 5 side by side as a number. -/
theorem parserReadsBytesFiveAndSix : Obligations.ParserReadsBytesFiveAndSix := by
  unfold Obligations.ParserReadsBytesFiveAndSix
  exact ⟨rfl, fun _ hshort => decodePositionResponse_short hshort,
    fun _ hlong => ⟨_, decodePositionResponse_long hlong, append_toNat_add ..⟩⟩

/-- The two bytes of a position side by side are the position (R121). -/
theorem extractBytes_append (p : BitVec 16) : p.extractLsb' 8 8 ++ p.extractLsb' 0 8 = p :=
  (BitVec.extractLsb'_append_extractLsb'_eq_extractLsb' rfl).trans BitVec.extractLsb'_eq_self

/-- The low byte of a position of 12 bits is not changed by the clamp (R92, R112). -/
theorem posLow_clamp {p : BitVec 16} (h : p.toNat ≤ Config.posMax) : posLow (clamp p.toNat) = p.extractLsb' 0 8 := by
  have hbytes := (posHigh_append_posLow (clamp p.toNat)).trans (setWidth_clamp h)
  have hlow := congrArg (BitVec.extractLsb' 0 8) hbytes
  rwa [BitVec.extractLsb'_append_eq_right] at hlow

/-- The parser reads a write packet's address as the low byte and the position's low byte as the high one (R119). -/
theorem decodePositionResponse_encWritePosition (id : Byte) (p : Int) :
    decodePositionResponse (some (encWritePosition id p)) = some (posLow (clamp p) ++ 0x2A#8) :=
  decodePositionResponse_long (by rw [encWritePosition_length]; decide)

/-- A position up to 4095 is not its low byte above 0x2A: only 0x2A2A is, which is larger. -/
theorem lowByte_append_ne {p : BitVec 16} (h : p.toNat ≤ 4095) : p.extractLsb' 0 8 ++ 0x2A#8 ≠ p := by
  intro heq
  have hnum := congrArg BitVec.toNat heq
  simp only [append_toNat_add, BitVec.extractLsb'_toNat, BitVec.toNat_ofNat, Nat.shiftRight_zero] at hnum
  omega

/-- Settles O20: the response carries the position's own two bytes at 6 and 5, and the write packet does not. -/
theorem positionRoundTrip : Obligations.PositionRoundTrip := by
  unfold Obligations.PositionRoundTrip
  intro id L E C p hp
  have hresponse : decodePositionResponse
      (some [0xFF#8, 0xFF#8, id, L, E, p.extractLsb' 0 8, p.extractLsb' 8 8, C]) = some p := by
    rw [decodePositionResponse_long (by simp)]
    exact congrArg some (extractBytes_append p)
  have hwrite : decodePositionResponse (some (encWritePosition id p.toNat)) = some (p.extractLsb' 0 8 ++ 0x2A#8) := by
    rw [decodePositionResponse_encWritePosition, posLow_clamp hp]
  refine ⟨hresponse, hwrite, fun heq => lowByte_append_ne hp ?_⟩
  exact Option.some.inj (hwrite.symm.trans heq)

/-! ### The wire rows -/

/-- A packet put on the port, as one update of the state (R39, R67). -/
theorem issuePacket_eq (b : List Byte) (ph : Phase) (s : State) : issuePacket b ph s =
    { s with txbuf := b, phase := ph, req := some (.write b), trace := s.trace ++ [.request (.write b)] } := rfl

/-- Settles O12: each request row puts the packet of its builder on the port. -/
theorem requestRowsPutTheirPacketOnThePort : Obligations.RequestRowsPutTheirPacketOnThePort := by
  unfold Obligations.RequestRowsPutTheirPacketOnThePort
  exact ⟨fun id s => congrArg Host.Outcome.next (issuePacket_eq (encReadPosition id) .rWrite s),
    fun id pos s => congrArg Host.Outcome.next (issuePacket_eq (encWritePosition id pos.toNat) .wWrite s),
    fun id en s => congrArg Host.Outcome.next (issuePacket_eq (encWriteTorqueEnable id en) .dWrite s)⟩

/-- RESP_POS ends the read with bytes 6 and 5 of its chunk, and rxbuf is empty after it (R116, R171, R40). -/
theorem exec_respPos_long {bs : List Byte} (s : State) (h : 8 ≤ bs.length) : exec (.respPos bs) s =
    .next (finishRead (some (bs.getD 6 0#8 ++ bs.getD 5 0#8)) { s with rxbuf := [] }) := by
  rw [← decodePositionResponse_long h, ← finishChunk_loadChunk]
  rfl

/-- Settles O13: the read ends by the latched command, with the value of the chunk. -/
theorem responseRowEndsTheRead : Obligations.ResponseRowEndsTheRead := by
  unfold Obligations.ResponseRowEndsTheRead
  refine ⟨fun bs s h hop => ?_, fun bs s h hop => ?_⟩
  · rw [exec_respPos_long s h, finishRead_readPos _ (s := { s with rxbuf := [] }) hop]
    simp [complete, record, releaseRead, posRegister]
  · rw [exec_respPos_long s h, finishRead_readAll _ (s := { s with rxbuf := [] }) hop]
    simp [storeSweepEntry, record, releaseRead]

end Sys2Proof.Machine

/-! ## The lifecycle commands, each by its rule, and a whole DISCONNECT (O1, O2, O3, O54) -/

namespace Sys2Proof.Machine

variable {p : PortIn} {s : State} {rest : List PortIn}

/-! ### What the rules make of an outcome or an expiry, as one update of the state -/

/-- A completion on an outcome (R43, R201). -/
theorem complete_takeOutcome (st : Status) (a : Answer) (s : State) : complete st (takeOutcome a s) =
    { s with req := none, lastStatus := st, phase := .idle, trace := s.trace ++ [.answer a, .done st] } := by
  simp [complete, takeOutcome, record]

/-- A torque-disable request on an expiry (R142, R217). -/
theorem disableStep_record_expire (s : State) : disableStep (record .expire s) =
    let b := encWriteTorqueEnable (s.idx.setWidth 8) false
    { s with txbuf := b, phase := .dWrite, req := some (.write b),
             trace := s.trace ++ [.expire, .request (.write b)] } := by
  simp [disableStep, issuePacket_eq, record]

/-- The gap begun on an outcome, with its default of 20 ticks (R142, R38; log 3). -/
theorem beginDisableGap_takeOutcome (a : Answer) (s : State) : beginDisableGap (takeOutcome a s) =
    { s with req := none, timer := 20#16, phase := .dGap, trace := s.trace ++ [.answer a] } := by
  rw [beginDisableGap, disableGapTicks_eq]
  rfl

/-- The bit of a motor from 1 on, set (R32). -/
theorem setMotorBit_true {i : BitVec 3} (r : BitVec 6) (h : 1#3 ≤ i) :
    setMotorBit r i true = r ||| 1#6 <<< (i.toNat - 1) := by
  have h0 : i ≠ 0#3 := by rintro rfl; exact absurd h (by decide)
  simp [setMotorBit, motorMask, h0]

/-! ### The takes -/

theorem exec_connect_connected (baud : BitVec 32) (h : s.conn = true) :
    exec (.connect baud) s = .next (raise .alreadyConnected s) :=
  congrArg Host.Outcome.next (if_pos h)

theorem exec_connect_disconnected (baud : BitVec 32) (h : s.conn = false) :
    exec (.connect baud) s = .next (issue (.openStream baud) { s with phase := .cOpen }) :=
  congrArg Host.Outcome.next (if_neg (by simp [h]))

theorem exec_disconnect_connected (h : s.conn = true) :
    exec .disconnect s = .next (disableStep { s with disableFail := 0#6, idx := 1#3 }) :=
  congrArg Host.Outcome.next (if_pos h)

theorem exec_disconnect_disconnected (h : s.conn = false) : exec .disconnect s = .next (complete .ok s) :=
  congrArg Host.Outcome.next (if_neg (by simp [h]))

/-! ### The steps on an outcome, on an expiry and without either -/

/-- Without an outcome a phase that waits for one without a deadline only samples its pins (R219). -/
theorem step_silent (hu : s.phase.unbounded = true) (hi : s.inputs = p :: rest) (hq : p.silent = true) :
    step s = .next (s.after p rest) := by
  obtain ⟨hr, ha⟩ : p.reset = false ∧ p.answer = none := by simpa [PortIn.silent] using hq
  have hn : s.phase ≠ .idle := by rintro h; simp [h, Phase.unbounded] at hu
  have ht : s.phase.timed = false := by
    cases h : s.phase <;> simp [h, Phase.unbounded, Phase.timed] at hu ⊢
  have he : expires p.tick (s.after p rest) = false := by simp [expires, ht]
  rw [step_pins hi hr, orchestrate_quiet ha he (.inl hn), countTick_untimed _ (by simpa using ht)]

/-- In C_OPEN the step takes an outcome of the open (R141). -/
theorem step_inCOpen {a : Answer} (hp : s.phase = .cOpen) (hf : a.fits s.req = true) (h : s.answered p rest a) :
    step s = inCOpen (takeOutcome a (s.after p rest)) a := by
  rw [step_answer h hf (by rw [hp]; rfl)]
  simp [takeAnswer, hp]

/-- The outcome of a torque-disable write, by whether it fails, as the environment's script has it. -/
def disableOutcome (fails : Bool) : Answer := if fails then .writeErr else .writeOk

/-- DISABLE_FAIL after that outcome (R32). -/
def failBitAfter (fails : Bool) (s : State) : BitVec 6 :=
  if fails then setMotorBit s.disableFail s.idx true else s.disableFail

/-- The step on the outcome of a torque-disable write begins the gap either way (R142). -/
theorem step_disableOutcome {b : List Byte} (fails : Bool) (hp : s.phase = .dWrite) (hq : s.req = some (.write b))
    (h : s.answered p rest (disableOutcome fails)) : step s = .next (beginDisableGap
      (takeOutcome (disableOutcome fails) { s.after p rest with disableFail := failBitAfter fails s })) := by
  rw [step_answer h (by rw [hq, fits_write]; cases fails <;> simp [disableOutcome]) (by rw [hp]; rfl)]
  cases fails <;> simp [takeAnswer, hp, inDWrite, disableOutcome, failBitAfter] <;> rfl

/-- The end of a gap before motor 6 (R142). -/
theorem disableGapExpired_next (h : s.idx < 6#3) :
    disableGapExpired s = disableStep (record .expire { s with idx := s.idx + 1#3 }) :=
  if_pos h

/-- The end of the gap after motor 6: write access is released and the close requested (R142). -/
theorem disableGapExpired_last (h : s.idx = 6#3) : disableGapExpired s =
    { s with wrHeld := false, phase := .dClose, req := some .closeStream,
             trace := s.trace ++ [.expire, .relWr, .request .closeStream] } := by
  rw [disableGapExpired, if_neg (by simp [h])]
  simp [issue, releaseWrite, record]

/-- The step on the last tick of a disable gap (R142, R217). -/
theorem step_disableGapEnd (hp : s.phase = .dGap) (h : s.expiring p rest) :
    step s = .next (disableGapExpired { s.after p rest with timer := 0#16 }) := by
  rw [step_expiry h (by rw [hp]; rfl)]
  simp [takeExpiry, hp]

/-- The outcome of the close, by whether it succeeds, as the environment's script has it. -/
def closeOutcome (closeOk : Bool) : Answer := if closeOk then .closeOk else .closeErr

/-- The status of a DISCONNECT whose close has that outcome (R205). -/
def closeStatus (closeOk : Bool) : Status := if closeOk then .ok else .closeFailed

/-- The step on the outcome of the close: Disconnected either way (R142). -/
theorem step_closeOutcome (closeOk : Bool) (hp : s.phase = .dClose) (hq : s.req = some .closeStream)
    (h : s.answered p rest (closeOutcome closeOk)) : step s = .next { s.after p rest with
      conn := false, req := none, lastStatus := closeStatus closeOk, phase := .idle
      trace := s.trace ++ [.answer (closeOutcome closeOk), .done (closeStatus closeOk)] } := by
  rw [step_answer h (by rw [hq, fits_close]; cases closeOk <;> simp [closeOutcome]) (by rw [hp]; rfl)]
  trans .next (complete (closeStatus closeOk)
    (takeOutcome (closeOutcome closeOk) { s.after p rest with conn := false }))
  · cases closeOk <;> simp [takeAnswer, hp, inDClose, closeOutcome, closeStatus] <;> rfl
  · rw [complete_takeOutcome]
    rfl

/-! ### The commands -/

/-- Settles O3: one clause is the code of O24, the other is the meaning itself. -/
theorem isConnReportsHandleAndReadSide : Obligations.IsConnReportsHandleAndReadSide := by
  unfold Obligations.IsConnReportsHandleAndReadSide
  refine ⟨fun id opnd => ?_, fun s => rfl⟩
  obtain ⟨-, -, hcode, -⟩ := hostWordsDecodeByTheirFields id opnd
  exact hcode

/-- Settles O1: the code, the two takes, the two outcomes of the open, and the step without one. -/
theorem connectFollowsItsRule : Obligations.ConnectFollowsItsRule := by
  unfold Obligations.ConnectFollowsItsRule
  refine ⟨fun id opnd => ?_, fun baud s hc => exec_connect_connected baud hc,
    fun baud s hc => exec_connect_disconnected baud hc, fun s p rest baud hp hq ha => ?_,
    fun s p rest baud hp hq ha => ?_, fun s p rest hp hi hn => step_silent (by rw [hp]; rfl) hi hn⟩
  · obtain ⟨hcode, -⟩ := hostWordsDecodeByTheirFields id opnd
    exact hcode
  · rw [step_inCOpen hp (by rw [hq]; rfl) ha]
    exact congrArg Host.Outcome.next
      (complete_takeOutcome .ok .openOk { s.after p rest with conn := true, wrHeld := true })
  · rw [step_inCOpen hp (by rw [hq]; rfl) ha]
    exact congrArg Host.Outcome.next (complete_takeOutcome .connectFailed .openErr (s.after p rest))

/-- Settles O2: the code, the two takes, the outcomes of a write, the ends of a gap, the outcomes of the close, and the
step without one. -/
theorem disconnectFollowsItsRule : Obligations.DisconnectFollowsItsRule := by
  unfold Obligations.DisconnectFollowsItsRule
  refine ⟨fun id opnd => ?_, fun s hc => exec_disconnect_disconnected hc, fun s hc => exec_disconnect_connected hc,
    fun s p rest bs hp hq ha => ?_, fun s p rest bs hp hq h1 _ ha => ?_, fun s p rest hp h6 hx => ?_,
    fun s p rest hp h6 hx => ?_, fun s p rest hp hq ha => ?_, fun s p rest hp hq ha => ?_,
    fun s p rest hp hi hn => step_silent ?_ hi hn⟩
  · obtain ⟨-, hcode, -⟩ := hostWordsDecodeByTheirFields id opnd
    exact hcode
  · rw [step_disableOutcome false hp hq ha, beginDisableGap_takeOutcome]
    rfl
  · rw [step_disableOutcome true hp hq ha, beginDisableGap_takeOutcome, ← setMotorBit_true _ h1]
    rfl
  · rw [step_disableGapEnd hp hx, disableGapExpired_next (by exact h6), disableStep_record_expire]
    rfl
  · rw [step_disableGapEnd hp hx, disableGapExpired_last (by exact h6)]
    rfl
  · exact step_closeOutcome true hp hq ha
  · exact step_closeOutcome false hp hq ha
  · rcases hp with hp | hp <;> rw [hp] <;> rfl

/-! ### A whole DISCONNECT

A motor's script takes the block from one torque-disable request to the end of its gap. What holds of the trace,
DISABLE_FAIL and the results after the first `k` scripts is `DisabledSoFar k`, and each motor's script adds one to `k`. -/

/-- The registers that no step of a DISCONNECT writes (R142). -/
def State.results (s : State) : Bool × BitVec 17 × BitVec 6 × Vector (BitVec 16) 6 × Bool :=
  (s.resultBool, s.resultPos, s.sweepValid, s.sweepPos, s.rdHeld)

/-- The torque-disable packets of motors 1 to `k`, in order. -/
def disablePackets (k : Nat) : List (List Byte) :=
  (List.range k).map fun i => encWriteTorqueEnable (BitVec.ofNat 8 (i + 1)) false

theorem writtenIn_append (ev ev' : List Event) : writtenIn (ev ++ ev') = writtenIn ev ++ writtenIn ev' :=
  List.filterMap_append

/-- From `s` to `t` the first `k` motors have been disabled: their packets and no other are written, DISABLE_FAIL holds
their failures, and the results are untouched. -/
structure DisabledSoFar (s : State) (fails : Vector Bool 6) (k : Nat) (t : State) : Prop where
  writes : ∃ ev, t.trace = s.trace ++ ev ∧ writtenIn ev = disablePackets k
  failBits : ∀ i : Fin 6, t.disableFail.getLsbD i = (decide (i.val < k) && fails[i])
  results : t.results = s.results

variable {fails : Vector Bool 6} {k : Nat} {t u : State}

/-- Events that write nothing disable no motor. -/
theorem DisabledSoFar.of_noWrite (h : DisabledSoFar s fails k t) (ev : List Event) (ht : u.trace = t.trace ++ ev)
    (hw : writtenIn ev = []) (hf : u.disableFail = t.disableFail) (hr : u.results = t.results) :
    DisabledSoFar s fails k u := by
  obtain ⟨⟨old, htrace, hwritten⟩, hbits, hres⟩ := h
  refine ⟨⟨old ++ ev, ?_, ?_⟩, hf ▸ hbits, hr.trans hres⟩
  · rw [ht, htrace, List.append_assoc]
  · rw [writtenIn_append, hwritten, hw, List.append_nil]

/-- The end of the gap of motor idx, before what the expiry does: its packet is written, its outcome recorded. -/
def disableGapOver (fails : Bool) (rest : List PortIn) (s : State) : State :=
  { s with
    disableFail := failBitAfter fails s, phase := .dGap, timer := 0#16, req := none
    txbuf := encWriteTorqueEnable (s.idx.setWidth 8) false, inputs := rest, rxUsable := false, regSel := 0#8
    trace := s.trace ++ [.request (.write (encWriteTorqueEnable (s.idx.setWidth 8) false)),
      .answer (disableOutcome fails)] }

/-- One motor's script, from its torque-disable request: the outcome begins the gap, and 20 ticks end it. -/
theorem run_disableScript {f : Bool} (hi : s.inputs = disableScript f ++ rest) :
    Host.Core.run Sys2Proof.core 21 (disableStep s) = .next (disableGapExpired (disableGapOver f rest s)) := by
  have hans : (disableStep s).answered (answerPins (disableOutcome f)) (tickPins 20 ++ rest) (disableOutcome f) :=
    ⟨hi, rfl, rfl⟩
  rw [run_cons (step_disableOutcome f rfl rfl hans), beginDisableGap_takeOutcome, run_ticks 19 _ rest rfl rfl rfl]
  simp [takeExpiry, disableGapOver, failBitAfter, State.after, disableStep, issuePacket_eq]

theorem failBitAfter_getLsbD (f : Bool) (s : State) (i : Fin 6) : (failBitAfter f s).getLsbD i =
    if i.val + 1 = s.idx.toNat then f || s.disableFail.getLsbD i else s.disableFail.getLsbD i := by
  cases f with
  | false => exact (ite_self _).symm
  | true => exact setMotorBit_get s.disableFail s.idx true i

/-- The script of motor k+1 disables that motor. -/
theorem DisabledSoFar.gapOver (h : DisabledSoFar s fails k t) (hk : k < 6) (hm : t.idx.toNat = k + 1)
    (rest : List PortIn) : DisabledSoFar s fails (k + 1) (disableGapOver fails[k] rest t) := by
  obtain ⟨⟨ev, htrace, hwritten⟩, hbits, hres⟩ := h
  refine ⟨⟨ev ++ [.request (.write (encWriteTorqueEnable (t.idx.setWidth 8) false)),
    .answer (disableOutcome fails[k])], ?_, ?_⟩, fun i => ?_, hres⟩
  · simp [disableGapOver, htrace]
  · rw [writtenIn_append, hwritten, ← BitVec.ofNat_toNat, hm, disablePackets, disablePackets, List.range_succ,
      List.map_append]
    rfl
  · show (failBitAfter fails[k] t).getLsbD i = _
    rw [failBitAfter_getLsbD, hm, hbits]
    by_cases hik : i.val = k
    · subst hik
      simp
    · have hlt : i.val < k + 1 ↔ i.val < k := by omega
      simp [hik, hlt]

/-- A gap that ends before motor 6 leads to the next motor's request, with no other write. -/
theorem DisabledSoFar.next (h : DisabledSoFar s fails k t) :
    DisabledSoFar s fails k (record .expire { t with idx := t.idx + 1#3 }) :=
  h.of_noWrite [.expire] rfl rfl rfl rfl

/-- The scripts of the first `k` motors, from motor 1's request to that of motor k+1. -/
theorem run_disableScripts (hm : t.idx = 1#3) (hi : t.inputs = fails.toList.flatMap disableScript ++ rest)
    (h : DisabledSoFar s fails 0 t) : ∀ k < 6, ∃ u,
      Host.Core.run Sys2Proof.core (21 * k) (disableStep t) = .next (disableStep u) ∧ u.idx.toNat = k + 1 ∧
      u.inputs = (fails.toList.drop k).flatMap disableScript ++ rest ∧ DisabledSoFar s fails k u := by
  intro k hk
  induction k with
  | zero => exact ⟨t, rfl, by simp [hm], hi, h⟩
  | succ k ih =>
    obtain ⟨u, hrun, hidx, hin, hdone⟩ := ih (by omega)
    have hscript : u.inputs =
        disableScript fails[k] ++ ((fails.toList.drop (k + 1)).flatMap disableScript ++ rest) := by
      rw [hin, List.drop_eq_getElem_cons (by simp; omega), List.flatMap_cons, List.append_assoc]
      rfl
    refine ⟨_, ?_, ?_, ?_, (hdone.gapOver (by omega) hidx
      ((fails.toList.drop (k + 1)).flatMap disableScript ++ rest)).next⟩
    · rw [Nat.mul_succ, run_append _ _ hrun, run_disableScript hscript, disableGapExpired_next]
      show u.idx < 6#3
      bv_omega
    · show (u.idx + 1#3).toNat = _
      bv_omega
    · rfl

/-- The state after the last gap and the outcome of the close: Disconnected and idle. -/
def disconnected (closeOk : Bool) (rest : List PortIn) (s : State) : State :=
  { s with
    conn := false, wrHeld := false, lastStatus := closeStatus closeOk, phase := .idle, req := none, inputs := rest
    rxUsable := false, regSel := 0#8
    trace := s.trace ++
      [.expire, .relWr, .request .closeStream, .answer (closeOutcome closeOk), .done (closeStatus closeOk)] }

/-- After motor 6 the expiry requests the close, and its outcome ends the command. -/
theorem step_disableGapExpired_last (closeOk : Bool) (h : s.idx = 6#3)
    (hi : s.inputs = answerPins (closeOutcome closeOk) :: rest) :
    step (disableGapExpired s) = .next (disconnected closeOk rest s) := by
  have hlast := disableGapExpired_last h
  rw [step_closeOutcome (s := disableGapExpired s) closeOk (by rw [hlast]) (by rw [hlast])
    ⟨by rw [hlast]; exact hi, rfl, rfl⟩, hlast]
  simp [disconnected, State.after, answerPins]

/-- The end of the command writes nothing more. -/
theorem DisabledSoFar.disconnected (h : DisabledSoFar s fails k t) (closeOk : Bool) (rest : List PortIn) :
    DisabledSoFar s fails k (disconnected closeOk rest t) :=
  h.of_noWrite [.expire, .relWr, .request .closeStream, .answer (closeOutcome closeOk), .done (closeStatus closeOk)]
    rfl rfl rfl rfl

/-- The state in which the step that takes a DISCONNECT writes motor 1's request (R142). -/
def disconnectTaken (rest : List PortIn) (s : State) : State :=
  { takeWord 1#64 s with
    disableFail := 0#6, idx := 1#3, inputs := rest, rxUsable := false, regSel := 0#8 }

theorem step_disconnectTaken (hp : s.phase = .idle) (hc : s.conn = true)
    (hi : s.inputs = { cmd := some 1#64 } :: rest) : step s = .next (disableStep (disconnectTaken rest s)) := by
  obtain ⟨-, htake⟩ := stepRunsTheOfferedCommand s _ rest 1#64 .disconnect ⟨hi, rfl, rfl, rfl, hp⟩ (by decide)
  exact (htake (by simp)).trans (exec_disconnect_connected hc)

theorem disabledSoFar_disconnectTaken (s : State) (fails : Vector Bool 6) (rest : List PortIn) :
    DisabledSoFar s fails 0 (disconnectTaken rest s) :=
  ⟨⟨[.cmd 1#64], rfl, rfl⟩, fun i => by simp [disconnectTaken], rfl⟩

/-- A Connected DISCONNECT, from the take to the outcome of the close. -/
theorem run_disconnect (closeOk : Bool) (hp : s.phase = .idle) (hc : s.conn = true)
    (hi : s.inputs = { cmd := some 1#64 } ::
      (fails.toList.flatMap disableScript ++ answerPins (closeOutcome closeOk) :: rest)) :
    ∃ u, DisabledSoFar s fails 6 u ∧
      Host.Core.run Sys2Proof.core 128 s = .next (disconnected closeOk rest u) := by
  obtain ⟨v, hrun, hidx, hin, hdone⟩ :=
    run_disableScripts rfl rfl (disabledSoFar_disconnectTaken s fails _) 5 (by decide)
  have hscript : v.inputs = disableScript fails[5] ++ answerPins (closeOutcome closeOk) :: rest := by
    rw [hin, List.drop_eq_getElem_cons (by simp), List.drop_eq_nil_of_le (by simp), List.flatMap_singleton]
    rfl
  refine ⟨_, hdone.gapOver (by decide) hidx (answerPins (closeOutcome closeOk) :: rest), ?_⟩
  rw [run_cons (n := 21 * 5 + (21 + 1)) (step_disconnectTaken hp hc hi), run_append _ _ hrun,
    run_append _ _ (run_disableScript hscript)]
  exact run_cons (step_disableGapExpired_last closeOk (BitVec.eq_of_toNat_eq hidx) rfl)

@[simp] theorem disableScript_length (f : Bool) : (disableScript f).length = 21 := rfl

/-- Settles O54: the take begins the sweep with no failure recorded, six scripts disable the six motors, and the close
ends the command whatever its outcome. -/
theorem disconnectDisablesAllSixMotors : Obligations.DisconnectDisablesAllSixMotors := by
  unfold Obligations.DisconnectDisablesAllSixMotors
  intro s fails closeOk rest hp hc script hi
  have hlen : script.length = 128 := by
    simp [script]
  have hin : s.inputs = { cmd := some 1#64 } ::
      (fails.toList.flatMap disableScript ++ answerPins (closeOutcome closeOk) :: rest) := by
    rw [hi]
    simp [script, closeOutcome]
  obtain ⟨u, hdone, hrun⟩ := run_disconnect closeOk hp hc hin
  obtain ⟨⟨ev, htrace, hwritten⟩, hbits, hres⟩ := hdone.disconnected closeOk rest
  simp only [State.results, Prod.mk.injEq] at hres
  obtain ⟨hbool, hpos, hvalid, hsweep, hrd⟩ := hres
  rw [hlen, hrun]
  exact ⟨_, ev, rfl, rfl, htrace, hwritten, fun i => by rw [hbits]; simp, rfl, rfl, rfl, rfl, hbool, hpos, hvalid,
    hsweep, hrd⟩

end Sys2Proof.Machine

/-! ## The transactions, each by its rule (O4 to O8, O34, O35, O41, O52) -/

namespace Sys2Proof.Machine

variable {p : PortIn} {s : State} {rest : List PortIn}

/-! ### The takes -/

theorem exec_readPos_connected (id : Byte) (h : s.conn = true) : exec (.readPos id) s = .next (startRead id s) :=
  congrArg Host.Outcome.next (requireConnected_of_conn _ h)

theorem exec_readPos_disconnected (id : Byte) (h : s.conn = false) :
    exec (.readPos id) s = .next (raise .notConnected s) :=
  congrArg Host.Outcome.next (requireConnected_of_not _ h)

theorem exec_readAll_connected (h : s.conn = true) :
    exec .readAll s = .next (startRead 1#8 { s with idx := 1#3 }) :=
  congrArg Host.Outcome.next (requireConnected_of_conn _ h)

theorem exec_readAll_disconnected (h : s.conn = false) : exec .readAll s = .next (raise .notConnected s) :=
  congrArg Host.Outcome.next (requireConnected_of_not _ h)

theorem exec_writePos_connected (id : Byte) (opnd : BitVec 32) (h : s.conn = true) : exec (.writePos id opnd) s =
    .next (issuePacket (encWritePosition id (clamp opnd.toInt).toNat) .wWrite { s with posc := clamp opnd.toInt }) :=
  congrArg Host.Outcome.next (requireConnected_of_conn _ h)

theorem exec_writePos_disconnected (id : Byte) (opnd : BitVec 32) (h : s.conn = false) :
    exec (.writePos id opnd) s = .next (raise .notConnected s) :=
  congrArg Host.Outcome.next (requireConnected_of_not _ h)

/-! ### What the shared operations make of a state, as one update -/

/-- The start of a read, after what else its step has recorded (R171). -/
theorem startRead_eq (id : Byte) (s : State) : startRead id s =
    { s with rdHeld := true, txbuf := encReadPosition id, phase := .rWrite, req := some (.write (encReadPosition id)),
             trace := s.trace ++ [.acqRd, .request (.write (encReadPosition id))] } := by
  simp [startRead, issuePacket_eq, acquireRead, record]

/-- The end of a READPOS's read (R171, R30). -/
theorem finishRead_readPos_eq (v : Option (BitVec 16)) (h : s.cmdOp = opReadPos) : finishRead v s =
    { s with rdHeld := false, resultPos := posRegister v, lastStatus := .ok, phase := .idle,
             trace := s.trace ++ [.relRd, .done .ok] } := by
  rw [finishRead_readPos v h]
  simp [complete, releaseRead, record]

/-- The end of a motor's read in a READALL (R171, R31), with the default gap (log 3). -/
theorem finishRead_readAll_eq (v : Option (BitVec 16)) (h : s.cmdOp = opReadAll) : finishRead v s =
    { s with rdHeld := false, sweepValid := setMotorBit s.sweepValid s.idx v.isSome,
             sweepPos := setMotorPos s.sweepPos s.idx (v.getD 0#16), timer := 50#16, phase := .sGap,
             trace := s.trace ++ [.relRd] } := by
  rw [finishRead_readAll v h]
  simp [storeSweepEntry, releaseRead, record]

/-- Whatever the command, the end of a read records RelRd and Done at most. -/
theorem finishRead_trace (v : Option (BitVec 16)) (s : State) :
    ∃ ev ⊆ [Event.relRd, .done .ok], (finishRead v s).trace = s.trace ++ ev := by
  rcases finishRead_cases v s with ⟨-, h⟩ | ⟨-, h⟩ | ⟨-, -, h⟩ <;> rw [h]
  · exact ⟨[.relRd, .done .ok], by simp, by simp⟩
  · exact ⟨[.relRd], by simp, by simp⟩
  · exact ⟨[.relRd], by simp, by simp⟩

/-- The parser's result by the chunk's length (R116). -/
theorem decodePositionResponse_eq (bs : List Byte) : decodePositionResponse (some bs) =
    if bs.length < 8 then none else some (bs.getD 6 0#8 ++ bs.getD 5 0#8) := by
  split_ifs with h
  · exact decodePositionResponse_short h
  · exact decodePositionResponse_long (Nat.not_lt.mp h)

/-- The sweep registers with `v` as the result of motor idx: its entry is written and no other (R31). -/
theorem sweepEntry_get (s : State) (v : Option (BitVec 16)) (i : Fin 6) :
    (i.val + 1 ≠ s.idx.toNat → (setMotorBit s.sweepValid s.idx v.isSome).getLsbD i = s.sweepValid.getLsbD i ∧
      (setMotorPos s.sweepPos s.idx (v.getD 0#16))[i] = s.sweepPos[i]) ∧
    (i.val + 1 = s.idx.toNat → (setMotorBit s.sweepValid s.idx v.isSome).getLsbD i = v.isSome ∧
      (setMotorPos s.sweepPos s.idx (v.getD 0#16))[i] = v.getD 0#16) := by
  rw [setMotorBit_get, setMotorPos_get]
  exact ⟨fun h => ⟨if_neg h, if_neg h⟩, fun h => ⟨if_pos h, if_pos h⟩⟩

/-! ### The steps on an outcome and on an expiry -/

/-- The end of a sweep gap before motor 6 (R176). -/
theorem sweepGapExpired_next (h : s.idx < 6#3) : sweepGapExpired s =
    startRead ((s.idx + 1#3).setWidth 8) (record .expire { s with idx := s.idx + 1#3 }) :=
  if_pos h

/-- The end of the gap after motor 6 (R176, R177). -/
theorem sweepGapExpired_last (h : s.idx = 6#3) : sweepGapExpired s =
    { s with lastStatus := .ok, phase := .idle, trace := s.trace ++ [.expire, .done .ok] } := by
  rw [sweepGapExpired, if_neg (by simp [h])]
  simp [complete, record]

/-- The step on the last tick of a sweep gap (R176, R217). -/
theorem step_sweepGapEnd (hp : s.phase = .sGap) (h : s.expiring p rest) :
    step s = .next (sweepGapExpired { s.after p rest with timer := 0#16 }) := by
  rw [step_expiry h (by rw [hp]; rfl)]
  simp [takeExpiry, hp]

/-- The outcome of a position write, by whether it succeeds. -/
def writeOutcome (ok : Bool) : Answer := if ok then .writeOk else .writeErr

/-- The step on the outcome of a position write: RESULT_BOOL says how it went (R175). -/
theorem step_writePosOutcome {b : List Byte} (ok : Bool) (hp : s.phase = .wWrite) (hq : s.req = some (.write b))
    (h : s.answered p rest (writeOutcome ok)) : step s = .next { s.after p rest with
      resultBool := ok, req := none, lastStatus := .ok, phase := .idle
      trace := s.trace ++ [.answer (writeOutcome ok), .done .ok] } := by
  rw [step_answer h (by rw [hq, fits_write]; cases ok <;> simp [writeOutcome]) (by rw [hp]; rfl)]
  trans .next (complete .ok (takeOutcome (writeOutcome ok) { s.after p rest with resultBool := ok }))
  · cases ok <;> simp [takeAnswer, hp, inWWrite, writeOutcome] <;> rfl
  · rw [complete_takeOutcome]
    rfl

/-- The step on WriteOk of a read request: the read is requested and its deadline armed (R171). -/
theorem step_readWritten {b : List Byte} (hp : s.phase = .rWrite) (hq : s.req = some (.write b))
    (h : s.answered p rest .writeOk) : step s = .next { s.after p rest with
      req := some (.read Config.readMaxLen), timer := 2000#16, phase := .rWait
      trace := s.trace ++ [.answer .writeOk, .request (.read Config.readMaxLen)] } := by
  rw [step_answer h (by rw [hq]; rfl) (by rw [hp]; rfl)]
  simp [takeAnswer, hp, inRWrite, issue, takeOutcome, record]

/-- The step on WriteErr of a read request: the read ends with no data (R171). -/
theorem step_readWriteFailed {b : List Byte} (hp : s.phase = .rWrite) (hq : s.req = some (.write b))
    (h : s.answered p rest .writeErr) :
    step s = .next (finishRead none (takeOutcome .writeErr (s.after p rest))) := by
  rw [step_answer h (by rw [hq]; rfl) (by rw [hp]; rfl)]
  simp [takeAnswer, hp, inRWrite]

/-- In R_WAIT the step takes an outcome of the read that is in time, its tick counted (R171; log 4). -/
theorem step_inRWait {a : Answer} (hp : s.phase = .rWait) (hf : a.fits s.req = true) (ht : s.inTime p)
    (h : s.answered p rest a) : step s =
      inRWait (takeOutcome a { s.after p rest with timer := (countTick p.tick s).timer }) a := by
  rw [step_readAnswer h hf ht]
  simp [takeAnswer, hp]

/-- A chunk of 1 to n bytes answers a read of n (R43). -/
theorem readData_fits {n : Nat} {bs : List Byte} (hq : s.req = some (.read n)) (h1 : 1 ≤ bs.length)
    (hn : bs.length ≤ n) : (Answer.readData bs).fits s.req = true := by
  rw [hq, fits_read]
  exact .inr (.inr ⟨bs, rfl, h1, hn⟩)

/-- The step on a chunk in time: the read ends with the parser's result, and rxbuf is empty (R171, R40; log 21). -/
theorem step_readChunk {bs : List Byte} (hp : s.phase = .rWait) (hf : (Answer.readData bs).fits s.req = true)
    (ht : s.inTime p) (h : s.answered p rest (.readData bs)) : step s =
      .next (finishRead (decodePositionResponse (some bs))
        (takeOutcome (.readData bs)
          { s.after p rest with timer := (countTick p.tick s).timer, rxbuf := [] })) := by
  rw [step_inRWait hp hf ht h]
  exact takeChunk_eq bs _

/-- The step on the end of the data or an error of the read, in time: no data (R171). -/
theorem step_readEnded {n : Nat} {a : Answer} (hp : s.phase = .rWait) (hq : s.req = some (.read n))
    (hk : a = .readEnd ∨ a = .readErr) (ht : s.inTime p) (h : s.answered p rest a) : step s =
      .next (finishRead none (takeOutcome a { s.after p rest with timer := (countTick p.tick s).timer })) := by
  rw [step_inRWait hp (by rw [hq, fits_read]; exact hk.imp_right .inl) ht h]
  rcases hk with rfl | rfl <;> rfl

/-- What the deadline of a read makes of the state: the read is cancelled and ends with no data (R171, R172). -/
theorem readExpired_eq_finishRead (s : State) : readExpired s =
    finishRead none { s with req := none, trace := s.trace ++ [.expire, .cancel] } := by
  simp [tCancel, record]

theorem takeExpiry_rWait (h : s.phase = .rWait) : takeExpiry s = readExpired s := by
  simp only [takeExpiry, h]

/-- The step on the last tick of a read's deadline (R171, R217). -/
theorem step_readDeadline (hp : s.phase = .rWait) (h : s.expiring p rest) :
    step s = .next (readExpired { s.after p rest with timer := 0#16 }) := by
  rw [step_expiry h (by rw [hp]; rfl), takeExpiry_rWait (by exact hp)]

/-- An outcome that fits and loses the tie is dropped: the expiry is taken (R172; log 4). -/
theorem orchestrate_deadlineWins {a : Answer} (ha : p.answer = some a) (hf : a.fits s.req = true)
    (he : expires p.tick s = true) (hw : p.answerWins = false) :
    orchestrate p s = .next (takeExpiry (countTick p.tick s)) := by
  simp [orchestrate, ha, hf, he, hw]

/-- The step on the last tick with an outcome that the deadline beats: the same as without the outcome (R172). -/
theorem step_readDeadlineWins {a : Answer} (hp : s.phase = .rWait) (hf : a.fits s.req = true)
    (h : s.answered p rest a) (htick : p.tick = true) (hm : s.timer = 1#16) (hw : p.answerWins = false) :
    step s = .next (readExpired { s.after p rest with timer := 0#16 }) := by
  obtain ⟨hi, hr, ha⟩ := h
  have htimed : (s.after p rest).phase.timed = true := by simp [hp, Phase.timed]
  have he : expires p.tick (s.after p rest) = true := (expires_iff _ _).2 ⟨htick, htimed, by simp [hm]⟩
  rw [step_pins hi hr, orchestrate_deadlineWins (s := s.after p rest) ha hf he hw, htick, countTick_timed htimed,
    takeExpiry_rWait (by exact hp)]
  simp [countDown, hm]

/-! ### The commands -/

/-- Settles O4: the check, and the start of the read written out. -/
theorem readPosStartsItsRead : Obligations.ReadPosStartsItsRead := by
  unfold Obligations.ReadPosStartsItsRead
  refine ⟨fun id s hc => exec_readPos_disconnected id hc, fun id s hc => ?_⟩
  rw [exec_readPos_connected id hc, startRead_eq]

/-- Settles O5: the two takes, and the gap's end before and after motor 6. -/
theorem readAllFollowsItsRule : Obligations.ReadAllFollowsItsRule := by
  unfold Obligations.ReadAllFollowsItsRule
  refine ⟨fun s hc => exec_readAll_disconnected hc, fun s hc => ?_, fun s p rest hp h6 hx => ?_,
    fun s p rest hp h6 hx => ?_⟩
  · rw [exec_readAll_connected hc, startRead_eq]
  · rw [step_sweepGapEnd hp hx, sweepGapExpired_next (by exact h6), startRead_eq]
    simp [record]
  · rw [step_sweepGapEnd hp hx, sweepGapExpired_last (by exact h6)]
    rfl

/-- Settles O6: the code, the two takes, the two outcomes of the write, and the step without one. -/
theorem writePosFollowsItsRule : Obligations.WritePosFollowsItsRule := by
  unfold Obligations.WritePosFollowsItsRule
  refine ⟨fun id opnd => ?_, fun id opnd s hc => exec_writePos_disconnected id opnd hc, fun id opnd s hc => ?_,
    fun s p rest bs hp hq ha => step_writePosOutcome true hp hq ha,
    fun s p rest bs hp hq ha => step_writePosOutcome false hp hq ha,
    fun s p rest hp hi hn => step_silent (by rw [hp]; rfl) hi hn⟩
  · obtain ⟨-, -, -, -, -, hcode⟩ := hostWordsDecodeByTheirFields id opnd
    exact hcode
  · rw [exec_writePos_connected id opnd hc, encWritePosition_clamp, issuePacket_eq]

/-- Settles O7: each outcome ends the read, and the end of a READPOS's read is one update of the state. -/
theorem readTransactionOfReadPos : Obligations.ReadTransactionOfReadPos := by
  unfold Obligations.ReadTransactionOfReadPos
  refine ⟨fun s p rest bs hp hq ha => step_readWritten hp hq ha, fun s p rest bs hp hq hop ha => ?_,
    fun s p rest n bs hp hq hop h1 hn ht ha => ?_, fun s p rest n a hp hq hop hk ht ha => ?_,
    fun s p rest hp hop hx => ?_⟩
  · rw [step_readWriteFailed hp hq ha, finishRead_readPos_eq _ (by exact hop)]
    simp [takeOutcome, record, posRegister]
  · rw [step_readChunk hp (readData_fits hq h1 hn) ht ha, finishRead_readPos_eq _ (by exact hop),
      decodePositionResponse_eq, apply_ite posRegister]
    simp [takeOutcome, record, posRegister]
  · rw [step_readEnded hp hq hk ht ha, finishRead_readPos_eq _ (by exact hop)]
    simp [takeOutcome, record, posRegister]
  · rw [step_readDeadline hp hx, readExpired_eq_finishRead, finishRead_readPos_eq _ (by exact hop)]
    simp [posRegister]

/-- Settles O8: each outcome ends the read, and the end of a READALL's read writes entry idx. -/
theorem readTransactionOfReadAll : Obligations.ReadTransactionOfReadAll := by
  unfold Obligations.ReadTransactionOfReadAll
  intro s p rest hop h1 h6
  refine ⟨fun n bs hp hq hb hn ht ha => ?_, fun tr hcause => ?_⟩
  · refine ⟨_, _, ?_, fun i => ⟨(sweepEntry_get s (decodePositionResponse (some bs)) i).1, fun hi => ?_⟩⟩
    · rw [step_readChunk hp (readData_fits hq hb hn) ht ha, finishRead_readAll_eq _ (by exact hop)]
      simp [takeOutcome, record]
    · obtain ⟨hv, hx⟩ := (sweepEntry_get s (decodePositionResponse (some bs)) i).2 hi
      rw [hv, hx, decodePositionResponse_eq]
      split_ifs with hl
      · simp [Nat.not_le.mpr hl]
      · simp [Nat.not_lt.mp hl]
  · refine ⟨_, _, ?_, sweepEntry_get s none⟩
    rcases hcause with ⟨hp, hx, rfl⟩ | ⟨n, a, hp, hq, hk, ht, ha, rfl⟩ | ⟨bs, hp, hq, ha, rfl⟩
    · rw [step_readDeadline hp hx, readExpired_eq_finishRead, finishRead_readAll_eq _ (by exact hop)]
      simp
    · rw [step_readEnded hp hq hk ht ha, finishRead_readAll_eq _ (by exact hop)]
      simp [takeOutcome, record]
    · rw [step_readWriteFailed hp hq ha, finishRead_readAll_eq _ (by exact hop)]
      simp [takeOutcome, record]

/-- Settles O34: the outcome is taken, and a chunk of 8 bytes or more decodes to the response row. -/
theorem stepRunsTheResponse : Obligations.StepRunsTheResponse := by
  unfold Obligations.StepRunsTheResponse
  intro s p rest n bs hp hq h8 hn ht ha
  rw [step_inRWait hp (readData_fits hq (by omega) hn) ht ha, inRWait, takeChunk, decodeResponse_long h8]
  rfl

/-- Settles O35: each take and each gap's end is the request row after the step's other effects. -/
theorem stepsRunTheRequestRows : Obligations.StepsRunTheRequestRows := by
  unfold Obligations.StepsRunTheRequestRows
  refine ⟨fun id s hc => exec_readPos_connected id hc, fun s hc => exec_readAll_connected hc,
    fun id opnd s hc => ?_, fun s hc => exec_disconnect_connected hc, fun s p rest hp h6 hx => ?_,
    fun s p rest hp h6 hx => ?_⟩
  · have hpos : ((clamp opnd.toInt).setWidth 16).toNat = (clamp opnd.toInt).toNat :=
      BitVec.toNat_setWidth_of_le (by decide)
    rw [exec_writePos_connected id opnd hc, ← hpos]
    rfl
  · rw [step_sweepGapEnd hp hx, sweepGapExpired_next (by exact h6), startRead]
    simp [exec, execReqReadPos, acquireRead, record]
  · rw [step_disableGapEnd hp hx, disableGapExpired_next (by exact h6)]
    rfl

/-- Settles O41: an outcome that wins ends the read as one in time, and one that loses leaves the deadline's step. -/
theorem tieGoesEitherWay : Obligations.TieGoesEitherWay := by
  unfold Obligations.TieGoesEitherWay
  intro s p rest a hp hq hm hal ha htick
  have hread : a.ofRead Config.readMaxLen = true := by simpa [State.allows, hp] using hal
  have hfit : a.fits s.req = true := by
    rw [hq]
    exact hread
  refine ⟨fun hw => ?_, fun hw => ?_⟩
  · have hin : s.inTime p := .inr hw
    obtain ⟨v, u, hs, hu⟩ : ∃ v u, step s = .next (finishRead v u) ∧ u.trace = s.trace ++ [.answer a] := by
      rcases (ofRead_iff a Config.readMaxLen).1 hread with hk | hk | ⟨bs, rfl, -⟩
      · exact ⟨_, _, step_readEnded hp hq (.inl hk) hin ha, rfl⟩
      · exact ⟨_, _, step_readEnded hp hq (.inr hk) hin ha, rfl⟩
      · exact ⟨_, _, step_readChunk hp hfit hin ha, rfl⟩
    obtain ⟨ev, hev, htr⟩ := finishRead_trace v u
    exact ⟨_, ev, hs, by simp [htr, hu], fun h => by simpa using hev h, fun h => by simpa using hev h⟩
  · have hs := step_readDeadlineWins hp hfit ha htick hm hw
    rw [hs, readExpired_eq_finishRead]
    refine ⟨?_, fun hop => ?_, fun hop _ _ => ⟨_, _, ?_, sweepEntry_get s none⟩⟩
    · obtain ⟨ev, hev, htr⟩ := finishRead_trace none
        { s.after p rest with timer := 0#16, req := none, trace := s.trace ++ [.expire, .cancel] }
      exact ⟨_, ev, rfl, by simpa using htr, fun h => by simpa using hev h⟩
    · rw [finishRead_readPos_eq _ (by exact hop)]
      simp [posRegister]
    · rw [finishRead_readAll_eq _ (by exact hop)]
      simp

/-- Any cause of no data ends a READPOS's read in one state but for rxbuf, the timer and the trace (R174). -/
theorem step_noData {n : Nat} (hp : s.phase = .rWait) (hq : s.req = some (.read n)) (hop : s.cmdOp = opReadPos)
    (hi : s.inputs = p :: rest) (hno : p.noData s) (hn : ∀ bs, p.answer = some (.readData bs) → bs.length ≤ n) :
    ∃ rb tm tr, step s = .next { s.after p rest with
      rdHeld := false, resultPos := 0#17, req := none, lastStatus := .ok, phase := .idle
      rxbuf := rb, timer := tm, trace := tr } := by
  obtain ⟨-, -, hchunk, hended, hdeadline⟩ := readTransactionOfReadPos
  obtain ⟨hr, ⟨ht, hcause⟩ | ⟨ha, ht, hm⟩⟩ := hno
  · have hin : s.inTime p := .inl (by simp [expires, ht])
    rcases hcause with ha | ha | ⟨bs, ha, h1, h8⟩
    · exact ⟨_, _, _, hended s p rest n .readEnd hp hq hop (.inl rfl) hin ⟨hi, hr, ha⟩⟩
    · exact ⟨_, _, _, hended s p rest n .readErr hp hq hop (.inr rfl) hin ⟨hi, hr, ha⟩⟩
    · have hs := hchunk s p rest n bs hp hq hop h1 (hn bs ha) hin ⟨hi, hr, ha⟩
      rw [if_pos h8] at hs
      exact ⟨_, _, _, hs⟩
  · exact ⟨_, _, _, hdeadline s p rest hp hop ⟨hi, hr, ha, ht, hm⟩⟩

/-- Settles O52: both causes lead to the one state of a read without data, with the same level pins. -/
theorem noDataDoesNotRevealItsCause : Obligations.NoDataDoesNotRevealItsCause := by
  unfold Obligations.NoDataDoesNotRevealItsCause
  intro s p q rest n hp hq hop hpn hqn hrx hsel hlen
  obtain ⟨rb, tm, tr, hs⟩ := step_noData (s := { s with inputs := p :: rest }) (p := p) hp hq hop rfl hpn
    fun bs h => hlen bs (.inl h)
  obtain ⟨rb', tm', tr', hs'⟩ := step_noData (s := { s with inputs := q :: rest }) (p := q) hp hq hop rfl hqn
    fun bs h => hlen bs (.inr h)
  refine ⟨_, rb', tm', tr', hs, rfl, rfl, hs'.trans ?_⟩
  simp [State.after, hrx, hsel]

end Sys2Proof.Machine

/-! ## A whole READALL (O55)

A motor's script takes the block from one read request to the end of its gap. What holds of the trace, the sweep entries
and the other results after the first `k` scripts is `SweptSoFar k`, and each motor's script adds one to `k`. -/

namespace Sys2Proof.Machine

variable {s t u : State} {fates : Vector ReadFate 6} {k : Nat} {rest : List PortIn}

/-! ### One motor's script -/

/-- A motor's script up to its gap: the outcomes of the write and of the read, or the deadline's ticks. -/
def readMoves : ReadFate → List PortIn
  | .writeFails => [answerPins .writeErr]
  | .chunk bs => [answerPins .writeOk, answerPins (.readData bs)]
  | .ends => [answerPins .writeOk, answerPins .readEnd]
  | .fails => [answerPins .writeOk, answerPins .readErr]
  | .deadline => answerPins .writeOk :: tickPins 2000

theorem tickPins_length (n : Nat) : (tickPins n).length = n := List.length_replicate

theorem readScript_eq (f : ReadFate) : readScript f = readMoves f ++ tickPins 50 := by
  cases f <;> rfl

/-- The gap of motor idx with `n` ticks to go, after a read of the events `ev`: its entry holds `v`, and the read side
is released (R171). -/
def inSweepGap (n : BitVec 16) (v : Option (BitVec 16)) (rx : List Byte) (ev : List Event) (rest : List PortIn)
    (s : State) : State :=
  { s with
    rdHeld := false, sweepValid := setMotorBit s.sweepValid s.idx v.isSome
    sweepPos := setMotorPos s.sweepPos s.idx (v.getD 0#16), phase := .sGap, timer := n, req := none
    txbuf := encReadPosition (s.idx.setWidth 8), rxbuf := rx, inputs := rest, rxUsable := false, regSel := 0#8
    trace := s.trace ++ ev }

/-- The state in R_WAIT after motor idx's request is written (R171). -/
def readRequested (rest : List PortIn) (s : State) : State :=
  { s with
    rdHeld := true, phase := .rWait, timer := 2000#16, req := some (.read Config.readMaxLen)
    txbuf := encReadPosition (s.idx.setWidth 8), inputs := rest, rxUsable := false, regSel := 0#8
    trace := s.trace ++ [.acqRd, .request (.write (encReadPosition (s.idx.setWidth 8))), .answer .writeOk,
      .request (.read Config.readMaxLen)] }

theorem step_startRead_writeOk (hi : s.inputs = answerPins .writeOk :: rest) :
    step (startRead (s.idx.setWidth 8) s) = .next (readRequested rest s) := by
  rw [step_readWritten (s := startRead _ s) rfl rfl ⟨hi, rfl, rfl⟩, startRead_eq]
  simp [readRequested, State.after, answerPins]

/-- A written request whose read has the outcome `a`, from the request to the gap. -/
theorem run_readAnswer {a : Answer} {v : Option (BitVec 16)} {rx : List Byte} (hop : s.cmdOp = opReadAll)
    (hi : s.inputs = answerPins .writeOk :: answerPins a :: rest)
    (ha : step (readRequested (answerPins a :: rest) s) =
      .next (finishRead v (takeOutcome a { (readRequested (answerPins a :: rest) s).after (answerPins a) rest with
        timer := (countTick (answerPins a).tick (readRequested (answerPins a :: rest) s)).timer, rxbuf := rx }))) :
    Host.Core.run Sys2Proof.core 2 (startRead (s.idx.setWidth 8) s) =
      .next (inSweepGap 50#16 v rx [.acqRd, .request (.write (encReadPosition (s.idx.setWidth 8))), .answer .writeOk,
        .request (.read Config.readMaxLen), .answer a, .relRd] rest s) := by
  rw [run_cons (step_startRead_writeOk hi), run_cons ha, finishRead_readAll_eq _ (by exact hop)]
  simp [Host.Core.run, readRequested, inSweepGap, State.after, takeOutcome, record, answerPins]

/-- However the read goes, it ends at the beginning of the gap with the result in the motor's entry, and the motor's
request is the only write (R171, R31). -/
theorem run_readMoves {f : ReadFate} (hop : s.cmdOp = opReadAll) (hf : f.possible)
    (hi : s.inputs = readMoves f ++ rest) : ∃ rx ev, writtenIn ev = [encReadPosition (s.idx.setWidth 8)] ∧
      Host.Core.run Sys2Proof.core (readMoves f).length (startRead (s.idx.setWidth 8) s) =
        .next (inSweepGap 50#16 f.result rx ev rest s) := by
  have hin {a : Answer} : (readRequested (answerPins a :: rest) s).inTime (answerPins a) :=
    .inl (by simp [expires, answerPins])
  cases f with
  | writeFails =>
    refine ⟨s.rxbuf, [.acqRd, .request (.write (encReadPosition (s.idx.setWidth 8))), .answer .writeErr, .relRd],
      rfl, (run_cons (step_readWriteFailed (s := startRead _ s) rfl rfl ⟨hi, rfl, rfl⟩)).trans ?_⟩
    rw [finishRead_readAll_eq _ (by exact hop), startRead_eq]
    simp [Host.Core.run, inSweepGap, State.after, takeOutcome, record, answerPins, ReadFate.result]
  | chunk bs =>
    refine ⟨_, _, ?_, run_readAnswer hop hi
      (step_readChunk rfl (readData_fits rfl hf.1 hf.2) hin ⟨rfl, rfl, rfl⟩)⟩
    rfl
  | ends =>
    refine ⟨_, _, ?_, run_readAnswer hop hi (step_readEnded rfl rfl (.inl rfl) hin ⟨rfl, rfl, rfl⟩)⟩
    rfl
  | fails =>
    refine ⟨_, _, ?_, run_readAnswer hop hi (step_readEnded rfl rfl (.inr rfl) hin ⟨rfl, rfl, rfl⟩)⟩
    rfl
  | deadline =>
    have hlen : (readMoves .deadline).length = 1999 + 1 + 1 := by rw [readMoves, List.length_cons, tickPins_length]
    have hasked : s.inputs = answerPins .writeOk :: (tickPins 2000 ++ rest) := hi
    have hticks := run_ticks 1999 (readRequested (tickPins 2000 ++ rest) s) rest rfl (by simp [readRequested]) rfl
    refine ⟨s.rxbuf, [.acqRd, .request (.write (encReadPosition (s.idx.setWidth 8))), .answer .writeOk,
      .request (.read Config.readMaxLen), .expire, .cancel, .relRd], rfl, ?_⟩
    rw [hlen, run_cons (step_startRead_writeOk hasked), hticks, takeExpiry_rWait rfl, readExpired_eq_finishRead,
      finishRead_readAll_eq _ (by exact hop)]
    simp [readRequested, inSweepGap, ReadFate.result]

/-- One motor's script, from its read request to the end of its gap. -/
theorem run_readScript {f : ReadFate} (hop : s.cmdOp = opReadAll) (hf : f.possible)
    (hi : s.inputs = readScript f ++ rest) : ∃ rx ev, writtenIn ev = [encReadPosition (s.idx.setWidth 8)] ∧
      Host.Core.run Sys2Proof.core (readScript f).length (startRead (s.idx.setWidth 8) s) =
        .next (sweepGapExpired (inSweepGap 0#16 f.result rx ev rest s)) := by
  rw [readScript_eq, List.append_assoc] at hi
  obtain ⟨rx, ev, hw, hrun⟩ := run_readMoves hop hf hi
  refine ⟨rx, ev, hw, ?_⟩
  rw [readScript_eq, List.length_append, tickPins_length, run_append _ _ hrun,
    run_ticks 49 (inSweepGap 50#16 f.result rx ev (tickPins 50 ++ rest) s) rest rfl (by simp [inSweepGap]) rfl]
  simp [takeExpiry, inSweepGap]

/-! ### The six scripts -/

/-- The read requests of motors 1 to `k`, in order. -/
def readPackets (k : Nat) : List (List Byte) := (List.range k).map fun i => encReadPosition (BitVec.ofNat 8 (i + 1))

/-- What no step of a READALL writes once it is taken: the command, CONN and WR_HELD, and the results of the other
commands (R176). -/
def State.readAllKeeps (s : State) : BitVec 4 × Bool × Bool × Bool × BitVec 17 × BitVec 6 :=
  (s.cmdOp, s.conn, s.wrHeld, s.resultBool, s.resultPos, s.disableFail)

/-- From the take at `s` to `t` the first `k` motors have been read: their requests and no other are written, their
entries hold their results, and nothing else is touched. -/
structure SweptSoFar (s : State) (fates : Vector ReadFate 6) (k : Nat) (t : State) : Prop where
  writes : ∃ ev, t.trace = s.trace ++ ev ∧ writtenIn ev = readPackets k
  entries : ∀ i : Fin 6, i.val < k →
    t.sweepValid.getLsbD i = fates[i].result.isSome ∧ t.sweepPos[i] = fates[i].result.getD 0#16
  keeps : t.readAllKeeps = { s with cmdOp := opReadAll }.readAllKeeps

/-- The latched command of a running READALL. -/
theorem SweptSoFar.cmdOp (h : SweptSoFar s fates k t) : t.cmdOp = opReadAll :=
  congrArg Prod.fst h.keeps

/-- Events that write nothing read no motor. -/
theorem SweptSoFar.of_noWrite (h : SweptSoFar s fates k t) (ev : List Event) (ht : u.trace = t.trace ++ ev)
    (hw : writtenIn ev = []) (hv : u.sweepValid = t.sweepValid) (hx : u.sweepPos = t.sweepPos)
    (hk : u.readAllKeeps = t.readAllKeeps) : SweptSoFar s fates k u := by
  obtain ⟨⟨old, htrace, hwritten⟩, hentries, hkeeps⟩ := h
  refine ⟨⟨old ++ ev, ?_, ?_⟩, by rwa [hv, hx], hk.trans hkeeps⟩
  · rw [ht, htrace, List.append_assoc]
  · rw [writtenIn_append, hwritten, hw, List.append_nil]

/-- The script of motor k+1 reads that motor. -/
theorem SweptSoFar.inSweepGap (h : SweptSoFar s fates k t) (hk : k < 6) (hm : t.idx.toNat = k + 1)
    {ev : List Event} (hw : writtenIn ev = [encReadPosition (t.idx.setWidth 8)]) (rx : List Byte)
    (rest : List PortIn) : SweptSoFar s fates (k + 1) (inSweepGap 0#16 fates[k].result rx ev rest t) := by
  obtain ⟨⟨old, htrace, hwritten⟩, hentries, hkeeps⟩ := h
  refine ⟨⟨old ++ ev, ?_, ?_⟩, fun i hi => ?_, hkeeps⟩
  · simp [Machine.inSweepGap, htrace]
  · rw [writtenIn_append, hwritten, hw, ← BitVec.ofNat_toNat, hm, readPackets, readPackets, List.range_succ,
      List.map_append]
    rfl
  · obtain ⟨hother, hmotor⟩ := sweepEntry_get t fates[k].result i
    by_cases hik : i.val = k
    · subst hik
      exact hmotor hm.symm
    · obtain ⟨hv, hx⟩ := hother (by omega)
      obtain ⟨hv', hx'⟩ := hentries i (by omega)
      exact ⟨hv.trans hv', hx.trans hx'⟩

/-- The scripts of the first `k` motors, from motor 1's request to that of motor k+1. -/
theorem run_readScripts (hf : ∀ i : Fin 6, fates[i].possible) (hm : t.idx = 1#3)
    (hi : t.inputs = fates.toList.flatMap readScript ++ rest) (h : SweptSoFar s fates 0 t) : ∀ k < 6, ∃ u,
      Host.Core.run Sys2Proof.core ((fates.toList.take k).flatMap readScript).length (startRead 1#8 t) =
        .next (startRead (u.idx.setWidth 8) u) ∧ u.idx.toNat = k + 1 ∧
      u.inputs = (fates.toList.drop k).flatMap readScript ++ rest ∧ SweptSoFar s fates k u := by
  intro k hk
  induction k with
  | zero => exact ⟨t, by rw [hm]; rfl, by simp [hm], hi, h⟩
  | succ k ih =>
    obtain ⟨u, hrun, hidx, hin, hdone⟩ := ih (by omega)
    have hlen : k < fates.toList.length := by simp; omega
    have hscript : u.inputs =
        readScript fates[k] ++ ((fates.toList.drop (k + 1)).flatMap readScript ++ rest) := by
      rw [hin, List.drop_eq_getElem_cons hlen, List.flatMap_cons, List.append_assoc]
      rfl
    obtain ⟨rx, ev, hw, hmotor⟩ := run_readScript hdone.cmdOp (hf ⟨k, by omega⟩) hscript
    have hnext := hdone.inSweepGap (by omega) hidx hw rx ((fates.toList.drop (k + 1)).flatMap readScript ++ rest)
    refine ⟨record .expire { inSweepGap 0#16 fates[k].result rx ev _ u with idx := u.idx + 1#3 }, ?_, ?_, rfl,
      hnext.of_noWrite [.expire] rfl rfl rfl rfl rfl⟩
    · rw [List.take_succ_eq_append_getElem hlen, List.flatMap_append, List.length_append, run_append _ _ hrun,
        List.flatMap_singleton]
      refine hmotor.trans (congrArg _ (sweepGapExpired_next ?_))
      show u.idx < 6#3
      bv_omega
    · show (u.idx + 1#3).toNat = _
      bv_omega

/-- The state in which the step that takes a READALL starts motor 1's read (R176). -/
def readAllTaken (rest : List PortIn) (s : State) : State :=
  { takeWord 4#64 s with idx := 1#3, inputs := rest, rxUsable := false, regSel := 0#8 }

theorem step_readAllTaken (hp : s.phase = .idle) (hc : s.conn = true)
    (hi : s.inputs = { cmd := some 4#64 } :: rest) : step s = .next (startRead 1#8 (readAllTaken rest s)) := by
  obtain ⟨-, htake⟩ := stepRunsTheOfferedCommand s _ rest 4#64 .readAll ⟨hi, rfl, rfl, rfl, hp⟩ (by decide)
  exact (htake (by simp [hc])).trans (exec_readAll_connected hc)

theorem sweptSoFar_readAllTaken (s : State) (fates : Vector ReadFate 6) (rest : List PortIn) :
    SweptSoFar s fates 0 (readAllTaken rest s) :=
  ⟨⟨[.cmd 4#64], rfl, rfl⟩, fun _ h => absurd h (Nat.not_lt_zero _), rfl⟩

/-- A Connected READALL, from the take to the end of motor 6's gap. -/
theorem run_readAll (hf : ∀ i : Fin 6, fates[i].possible) (hp : s.phase = .idle) (hc : s.conn = true)
    (hi : s.inputs = { cmd := some 4#64 } :: (fates.toList.flatMap readScript ++ rest)) :
    ∃ u, SweptSoFar s fates 6 u ∧ u.idx = 6#3 ∧ u.rdHeld = false ∧ u.inputs = rest ∧
      Host.Core.run Sys2Proof.core ((fates.toList.flatMap readScript).length + 1) s = .next (sweepGapExpired u) := by
  obtain ⟨v, hrun, hidx, hin, hdone⟩ :=
    run_readScripts hf rfl rfl (sweptSoFar_readAllTaken s fates _) 5 (by decide)
  have hlast : (fates.toList.drop 5).flatMap readScript = readScript fates[5] := by
    rw [List.drop_eq_getElem_cons (by simp), List.drop_eq_nil_of_le (by simp), List.flatMap_singleton]
    rfl
  have hlen : (fates.toList.flatMap readScript).length =
      ((fates.toList.take 5).flatMap readScript).length + (readScript fates[5]).length := by
    rw [← hlast, ← List.length_append, ← List.flatMap_append, List.take_append_drop]
  rw [hlast] at hin
  obtain ⟨rx, ev, hw, hmotor⟩ := run_readScript hdone.cmdOp (hf 5) hin
  refine ⟨_, hdone.inSweepGap (by decide) hidx hw rx rest, BitVec.eq_of_toNat_eq hidx, rfl, rfl, ?_⟩
  rw [hlen, run_cons (step_readAllTaken hp hc hi), run_append _ _ hrun]
  exact hmotor

/-- Settles O55: the take starts motor 1's read, six scripts read the six motors, and the last gap ends the command. -/
theorem readAllWritesAllSixEntries : Obligations.ReadAllWritesAllSixEntries := by
  unfold Obligations.ReadAllWritesAllSixEntries
  intro s fates rest hp hc hf script hi
  obtain ⟨u, hdone, hidx, hrd, hin, hrun⟩ := run_readAll hf hp hc hi
  have hend := sweepGapExpired_last hidx
  obtain ⟨⟨ev, htrace, hwritten⟩, hentries, hkeeps⟩ :=
    hdone.of_noWrite (u := sweepGapExpired u) [.expire, .done .ok] (by rw [hend]) rfl (by rw [hend]) (by rw [hend])
      (by rw [hend]; rfl)
  simp only [State.readAllKeeps, Prod.mk.injEq] at hkeeps
  obtain ⟨-, hconn, hwr, hbool, hpos, hfail⟩ := hkeeps
  exact ⟨_, ev, hrun, by rw [hend]; exact hin, htrace, hwritten, fun i => hentries i i.isLt, by rw [hend],
    by rw [hend], by rw [hend]; exact hrd, hconn.trans hc, hwr, hbool, hpos, hfail⟩

end Sys2Proof.Machine


/-! ## Errors, refusals and the time base (O36, O38, O39, O40, O9, O10, O11, O14) -/

namespace Sys2Proof.Machine

variable {p : PortIn} {s t u : State} {rest : List PortIn}

/-! ### Completion -/

/-- Completion, as one update of the state (R201). -/
theorem complete_eq (st : Status) (s : State) :
    complete st s = { s with lastStatus := st, phase := .idle, trace := s.trace ++ [.done st] } := rfl

/-- Settles O11: completion is one update, `raise` is completion, and an idle block is ready. -/
theorem completionEndsTheCommand : Obligations.CompletionEndsTheCommand := by
  unfold Obligations.CompletionEndsTheCommand
  exact fun st s => ⟨complete_eq st s, rfl, rfl, rfl⟩

/-- Settles O14: each meaning is one next state, which it chooses by a check at most (R200). -/
theorem everyInstructionCompletes : Obligations.EveryInstructionCompletes := by
  unfold Obligations.EveryInstructionCompletes
  intro i s
  cases i <;> exact ⟨_, rfl⟩

/-! ### Words rejected at the take -/

/-- A word taken by the idle block without being latched, then completed: two events, and LAST_STATUS (R209, R210). -/
theorem raise_takeRejected_of_idle (st : Status) (w : HostWord) (h : s.phase = .idle) :
    raise st (takeRejected w s) = { s with lastStatus := st, trace := s.trace ++ [.cmd w, .done st] } := by
  simp [raise, complete_eq, takeRejected, record, ← h]

/-- A command that its own check rejects is run on the state that has recorded it alone (R206, R209; log 6). -/
theorem step_rejectedAtTake {w : HostWord} {i : Instr} (ho : s.offered p rest w) (hd : decodeHostWord w = .ok i)
    (hrej : rejectedAtTake i s = true) : step s = exec i (takeRejected w (s.after p rest)) := by
  obtain ⟨htake, -⟩ := stepRunsTheOfferedCommand s p rest w i ho hd
  exact htake ((rejectedAtTake_iff i s).1 hrej)

/-- Settles O9: the check rejects the CONNECT, and its meaning completes with ALREADY_CONNECTED. -/
theorem connectWhileConnectedChangesOnlyItsStatus : Obligations.ConnectWhileConnectedChangesOnlyItsStatus := by
  unfold Obligations.ConnectWhileConnectedChangesOnlyItsStatus
  intro s p rest w baud ho hd hc
  have ⟨_, _, _, _, hidle⟩ := ho
  rw [step_rejectedAtTake ho hd hc, exec_connect_connected baud (by exact hc),
    raise_takeRejected_of_idle .alreadyConnected w (by exact hidle)]
  rfl

/-- The three bus commands complete with NOT_CONNECTED while Disconnected (R144, R203). -/
theorem exec_bus_disconnected {i : Instr}
    (hi : (∃ id, i = .readPos id) ∨ i = .readAll ∨ ∃ id opnd, i = .writePos id opnd) (hc : s.conn = false) :
    exec i s = .next (raise .notConnected s) := by
  rcases hi with ⟨id, rfl⟩ | rfl | ⟨id, opnd, rfl⟩
  · exact exec_readPos_disconnected id hc
  · exact exec_readAll_disconnected hc
  · exact exec_writePos_disconnected id opnd hc

/-- Settles O10: the check rejects the command, and its meaning completes with NOT_CONNECTED. -/
theorem busCommandsNeedTheHandle : Obligations.BusCommandsNeedTheHandle := by
  unfold Obligations.BusCommandsNeedTheHandle
  intro i s hbus hc
  refine ⟨exec_bus_disconnected hbus hc, fun p rest w ho hd => ?_⟩
  have ⟨_, _, _, _, hidle⟩ := ho
  have hrej : rejectedAtTake i s = true := (rejectedAtTake_iff i s).2 (.inr ⟨hc, hbus⟩)
  rw [step_rejectedAtTake ho hd hrej, exec_bus_disconnected hbus (by exact hc),
    raise_takeRejected_of_idle .notConnected w (by exact hidle)]
  rfl

/-- An illegal word completes at once (R93, R207). -/
theorem takeCommand_rejected {w : HostWord} {e : DecodeError} (s : State) (hd : decodeHostWord w = .rejected e) :
    takeCommand w s = .next (rejectIllegal w s) := by
  simp [takeCommand, hd]

/-- Settles O36: the decoder rejects the word by one of its fields, and the take completes with ILLEGAL_COMMAND. -/
theorem illegalWordCompletesAtOnce : Obligations.IllegalWordCompletesAtOnce := by
  unfold Obligations.IllegalWordCompletesAtOnce
  intro s p rest w ⟨hi, hr, ha, hc, hidle⟩ hfields
  obtain ⟨e, hd⟩ := (decodeHostWord_rejected_iff w).2 hfields
  rw [step_pins hi hr, orchestrate_command (s := s.after p rest) ha hc hidle, takeCommand_rejected _ hd, rejectIllegal,
    raise_takeRejected_of_idle .illegalCommand w (by exact hidle)]
  rfl

/-! ### Where a step gives a next state -/

/-- The idle block takes every word (R42, R93). -/
theorem takeCommand_next (w : HostWord) (s : State) : ∃ t, takeCommand w s = .next t := by
  cases hd : decodeHostWord w with
  | ok i =>
    rw [takeCommand_ok s hd]
    exact everyInstructionCompletes i _
  | rejected e => exact ⟨_, takeCommand_rejected s hd⟩

/-- Without an outcome the orchestrator always has a move: an expiry, a command or at most a tick (R221). -/
theorem orchestrate_next_of_noAnswer (ha : p.answer = none) : ∃ t, orchestrate p s = .next t := by
  cases hx : expires p.tick s with
  | true => exact ⟨_, orchestrate_expiry ha hx⟩
  | false =>
    by_cases hp : s.phase = .idle
    · cases hc : p.cmd with
      | none => exact ⟨_, orchestrate_quiet ha hx (.inr hc)⟩
      | some w =>
        rw [orchestrate_command ha hc hp]
        exact takeCommand_next w s
    · exact ⟨_, orchestrate_quiet ha hx (.inl hp)⟩

/-- An outcome that its phase awaits is taken (R219). -/
theorem takeAnswer_next_of_allows {a : Answer} (h : s.allows a = true) : ∃ t, takeAnswer a s = .next t := by
  unfold State.allows at h
  unfold takeAnswer
  cases hp : s.phase with
  | cOpen =>
    have hk : a = .openOk ∨ a = .openErr := by simpa [hp] using h
    rcases hk with rfl | rfl <;> exact ⟨_, rfl⟩
  | rWrite | wWrite | dWrite =>
    have hk : a = .writeOk ∨ a = .writeErr := by simpa [hp] using h
    rcases hk with rfl | rfl <;> exact ⟨_, rfl⟩
  | rWait =>
    rw [hp] at h
    rcases (ofRead_iff a _).1 h with rfl | rfl | ⟨bs, rfl, -⟩
    · exact ⟨_, rfl⟩
    · exact ⟨_, rfl⟩
    · exact ⟨_, takeChunk_eq bs _⟩
  | dClose =>
    have hk : a = .closeOk ∨ a = .closeErr := by simpa [hp] using h
    rcases hk with rfl | rfl <;> exact ⟨_, rfl⟩
  | idle | sGap | dGap => simp [hp] at h

/-- Where the outstanding request is the one the phase awaits, it is answered by what the phase allows (R43, R219). -/
theorem fits_eq_allows (a : Answer) (hq : s.req = s.awaited) : a.fits s.req = s.allows a := by
  rw [hq, State.awaited, State.allows]
  cases s.phase <;> rfl

/-- With an outcome the orchestrator has a move exactly if the outcome is one the phase awaits (R219, R220). -/
theorem orchestrate_next_iff_allows {a : Answer} (hq : s.req = s.awaited) (ha : p.answer = some a) :
    (∃ t, orchestrate p s = .next t) ↔ s.allows a = true := by
  have hfit := fits_eq_allows a hq
  constructor
  · rintro ⟨t, ht⟩
    rw [← hfit]
    by_contra hn
    simp [orchestrate, ha, hn] at ht
  · intro hal
    by_cases hin : s.inTime p
    · rw [orchestrate_answer ha (hfit.trans hal) hin]
      exact takeAnswer_next_of_allows (by simpa [State.allows] using hal)
    · obtain ⟨hx, hw⟩ : expires p.tick s = true ∧ p.answerWins = false := by simpa [State.inTime] using hin
      exact ⟨_, orchestrate_deadlineWins ha (hfit.trans hal) hx hw⟩

/-- Settles O38: a reset is always taken, and without it the orchestrator refuses nothing but an outcome that does not
answer the outstanding request, which under the invariant is the phase's. -/
theorem stepIsNextWhereTheTransportIsAllowed : Obligations.StepIsNextWhereTheTransportIsAllowed := by
  unfold Obligations.StepIsNextWhereTheTransportIsAllowed
  intro s p rest hinv hi
  cases hr : p.reset with
  | true => simp [step_reset hi hr]
  | false =>
    rw [step_pins hi hr]
    cases ha : p.answer with
    | none => simpa using orchestrate_next_of_noAnswer ha
    | some a =>
      have hiff : (∃ t, orchestrate p (s.after p rest) = .next t) ↔ s.allows a = true :=
        orchestrate_next_iff_allows (s := s.after p rest) hinv.outstanding ha
      simpa using hiff

/-! ### Waiting without an outcome -/

theorem silent_iff (p : PortIn) : p.silent = true ↔ p.reset = false ∧ p.answer = none := by
  simp [PortIn.silent]

/-- How many of the pin records tick. -/
def ticksIn (moves : List PortIn) : Nat := (moves.filter (·.tick)).length

theorem ticksIn_cons (p : PortIn) (moves : List PortIn) : ticksIn (p :: moves) = p.tick.toNat + ticksIn moves := by
  cases h : p.tick <;> simp [ticksIn, h, Nat.add_comm]

/-- From `s` to `t` the block has only waited, for `n` ticks: a timed phase has counted them (R217). -/
structure Waited (n : Nat) (s t : State) : Prop where
  phase : t.phase = s.phase
  trace : t.trace = s.trace
  req : t.req = s.req
  timer : s.phase.timed = true → t.timer.toNat + n = s.timer.toNat

theorem Waited.refl (s : State) : Waited 0 s s := ⟨rfl, rfl, rfl, fun _ => rfl⟩

theorem Waited.trans {n m : Nat} (h : Waited n s t) (h' : Waited m t u) : Waited (n + m) s u := by
  refine ⟨h'.phase.trans h.phase, h'.trace.trans h.trace, h'.req.trans h.req, fun ht => ?_⟩
  have hn := h.timer ht
  have hm := h'.timer (h.phase ▸ ht)
  omega

/-- A step's tick is counted in a timed phase, if the timer has one left (R217). -/
theorem countTick_timer {b : Bool} (ht : s.phase.timed = true) (h : b.toNat ≤ s.timer.toNat) :
    (countTick b s).timer.toNat + b.toNat = s.timer.toNat := by
  cases b with
  | false => rfl
  | true =>
    have h : 1 ≤ s.timer.toNat := h
    have h0 : s.timer ≠ 0#16 := by rintro h0; simp [h0] at h
    rw [countTick_timed ht, countDown, if_neg h0, Bool.toNat_true]
    bv_omega

/-- A step without reset and outcome that does not end a timed phase only waits, if the block is busy (R25, R217). -/
theorem step_waits (hn : s.phase ≠ .idle) (hi : s.inputs = p :: rest) (hq : p.silent = true)
    (hm : s.phase.timed = true → p.tick.toNat < s.timer.toNat) :
    ∃ t, step s = .next t ∧ t.inputs = rest ∧ Waited p.tick.toNat s t := by
  obtain ⟨hr, ha⟩ := (silent_iff p).1 hq
  have hx : expires p.tick (s.after p rest) = false := by
    by_contra hx
    obtain ⟨htick, ht, hle⟩ := (expires_iff _ _).1 (Bool.of_not_eq_false hx)
    have hlt := hm ht
    rw [htick] at hlt
    exact absurd hle (Nat.not_le.2 hlt)
  refine ⟨countTick p.tick (s.after p rest), ?_, by simp, by simp, by simp, by simp, fun ht => ?_⟩
  · rw [step_pins hi hr, orchestrate_quiet ha hx (.inl hn)]
  · exact countTick_timer (s := s.after p rest) ht (hm ht).le

/-- Any number of such steps only waits, if their ticks do not end a timed phase (R217, R240). -/
theorem run_waits (moves : List PortIn) (hn : s.phase ≠ .idle) (hq : ∀ p ∈ moves, p.silent = true)
    (hm : s.phase.timed = true → ticksIn moves < s.timer.toNat) (hi : s.inputs = moves ++ rest) :
    ∃ t, Host.Core.run Sys2Proof.core moves.length s = .next t ∧ t.inputs = rest ∧ Waited (ticksIn moves) s t := by
  induction moves generalizing s with
  | nil => exact ⟨s, rfl, hi, .refl s⟩
  | cons p moves ih =>
    rw [ticksIn_cons] at hm ⊢
    rw [List.forall_mem_cons] at hq
    obtain ⟨t, hstep, hin, hw⟩ := step_waits hn hi hq.1 fun ht => by have := hm ht; omega
    obtain ⟨u, hrun, hin', hw'⟩ := ih (hw.phase ▸ hn) hq.2
      (fun ht => by have := hm (hw.phase ▸ ht); have := hw.timer (hw.phase ▸ ht); omega) hin
    exact ⟨u, (run_cons hstep).trans hrun, hin', hw.trans hw'⟩

/-- A phase without a deadline is busy, and its ticks are ignored (R217, R219). -/
theorem unbounded_busy_untimed {ph : Phase} (h : ph.unbounded = true) : ph ≠ .idle ∧ ph.timed = false := by
  cases ph <;> simp [Phase.unbounded, Phase.timed] at h ⊢

/-- Settles O39: a phase without a deadline is busy and counts no tick, so the steps only wait. -/
theorem unansweredRequestKeepsTheBlockBusy : Obligations.UnansweredRequestKeepsTheBlockBusy := by
  unfold Obligations.UnansweredRequestKeepsTheBlockBusy
  intro moves rest s hu hq hi
  obtain ⟨hn, ht⟩ := unbounded_busy_untimed hu
  obtain ⟨t, hrun, hin, hw⟩ := run_waits moves hn hq (by simp [ht]) hi
  exact ⟨t, hrun, hw.phase, decide_eq_true (hw.phase ▸ hn), hw.trace, hw.req, hin⟩

/-- The expiry of a timed phase is recorded first (R217, R45). -/
theorem takeExpiry_trace (h : s.phase.timed = true) : ∃ ev, (takeExpiry s).trace = s.trace ++ .expire :: ev := by
  cases hp : s.phase with
  | rWait =>
    obtain ⟨ev, -, htr⟩ := finishRead_trace none (tCancel (record .expire s))
    exact ⟨.cancel :: ev, by rw [takeExpiry_rWait hp, readExpired, htr]; simp⟩
  | sGap =>
    simp only [takeExpiry, hp, sweepGapExpired]
    split_ifs <;> simp
  | dGap =>
    simp only [takeExpiry, hp, disableGapExpired]
    split_ifs <;> simp
  | idle | cOpen | rWrite | wWrite | dWrite | dClose => simp [hp, Phase.timed] at h

/-- Settles O40: N-1 ticks leave the phase waiting with its timer at 1, and the next tick is the expiry. -/
theorem expiryComesOnTheNthTick : Obligations.ExpiryComesOnTheNthTick := by
  unfold Obligations.ExpiryComesOnTheNthTick
  intro moves rest p s ht hq hp htick hN hi
  have hN : ticksIn moves + 1 = s.timer.toNat := hN
  have hn : s.phase ≠ .idle := by rintro h; simp [h, Phase.timed] at ht
  obtain ⟨t, hrun, hin, hw⟩ := run_waits moves hn hq (fun _ => by omega) hi
  obtain ⟨hr, ha⟩ := (silent_iff p).1 hp
  have hone : t.timer = 1#16 := BitVec.eq_of_toNat_eq (by have := hw.timer ht; simp; omega)
  have htimed : t.phase.timed = true := hw.phase ▸ ht
  obtain ⟨ev, hev⟩ := takeExpiry_trace (s := { t.after p rest with timer := 0#16 }) htimed
  exact ⟨t, _, ev, hrun, hw.phase, hw.trace, step_expiry ⟨hin, hr, ha, htick, hone⟩ htimed,
    hev.trans (congrArg (· ++ _) hw.trace)⟩

end Sys2Proof.Machine

/-! ## Reset, and reads too short for a position (O53, O30, O31, O42) -/

namespace Sys2Proof.Machine

variable {p : PortIn} {s t : State}

/-! ### Reads too short for a position -/

/-- The read of `s` ends in `t` without data, under the command and the motor of `s` (R171). -/
def EndsReadWithoutData (s t : State) : Prop :=
  ∃ u, t = finishRead none u ∧ u.cmdOp = s.cmdOp ∧ u.idx = s.idx

/-- RESULT_POS is 0 after a READPOS's read without data (R30). -/
theorem EndsReadWithoutData.resultPos (h : EndsReadWithoutData s t) (hop : s.cmdOp = opReadPos) :
    t.resultPos = 0#17 := by
  obtain ⟨u, rfl, hu, -⟩ := h
  rw [finishRead_readPos_eq none (hu.trans hop)]
  rfl

/-- The motor's entry is not valid and 0 after a READALL's read without data (R31). -/
theorem EndsReadWithoutData.sweepEntry (h : EndsReadWithoutData s t) (hop : s.cmdOp = opReadAll) {i : Fin 6}
    (hi : i.val + 1 = s.idx.toNat) : t.sweepValid.getLsbD i = false ∧ t.sweepPos[i] = 0#16 := by
  obtain ⟨u, rfl, hu, hidx⟩ := h
  rw [finishRead_readAll_eq none (hu.trans hop)]
  exact (sweepEntry_get u none i).2 (hidx ▸ hi)

/-- A read for `n` bytes is not answered by a chunk of more (R43). -/
theorem length_le_of_readData_fits {n : Nat} {bs : List Byte} (hq : s.req = some (.read n))
    (hf : (Answer.readData bs).fits s.req = true) : bs.length ≤ n := by
  obtain ⟨-, hle⟩ : 1 ≤ bs.length ∧ bs.length ≤ n := by simpa [hq, fits_read] using hf
  exact hle

/-- A move from the write of a read request, or from a read of fewer than 8 bytes, stays in its phase, begins the wait
for the read, or ends the read without data: a chunk that fits is too short for the parser (R238, R116).
The moves not named here start in another phase. -/
theorem move_shortRead {n : Nat} (hn : n < 8) (hs : s.phase = .rWrite ∨ (s.phase = .rWait ∧ s.req = some (.read n)))
    (h : Move p s t) : t.phase = s.phase ∨ t.phase = .rWait ∨ EndsReadWithoutData s t := by
  cases h with
  | quiet _ he => exact .inl (by simp [he])
  | readWritten _ _ he => exact .inr (.inl (by simp [he]))
  | readWriteFailed _ _ he
  | readExpired _ _ he
  | readEnded _ _ _ _ he => exact .inr (.inr ⟨_, he, by simp, by simp⟩)
  | chunk bs _ hp hf he =>
    have hq : s.req = some (.read n) := by simpa [hp] using hs
    have hshort : bs.length < 8 := (length_le_of_readData_fits hq hf).trans_lt hn
    rw [decodePositionResponse_short hshort] at he
    exact .inr (.inr ⟨_, he, by simp, by simp⟩)
  | _ => simp_all

/-- Settles O53: a step without reset is a move, and one that ends such a read ends it without data. -/
theorem shortReadsNeverGiveAPosition : Obligations.ShortReadsNeverGiveAPosition := by
  unfold Obligations.ShortReadsNeverGiveAPosition
  intro s t p rest n hn hs hphase hwait hi hr h
  have hend : EndsReadWithoutData (s.after p rest) t :=
    ((move_shortRead (s := s.after p rest) hn hs (step_move hi hr h)).resolve_left hphase).resolve_left hwait
  exact ⟨hend.resultPos, fun hop _ => hend.sweepEntry hop⟩

/-! ### Reset -/

theorem reset_sweepPos (i : Fin 6) : State.reset.sweepPos[i] = 0#16 := Vector.getElem_replicate i.isLt

/-- STATUS is 0 while Disconnected, idle and without a hold, after status OK (R21, R24). -/
theorem status_eq_zero (hl : s.lastStatus = .ok) (hc : s.conn = false) (hp : s.phase = .idle) (hw : s.wrHeld = false)
    (hr : s.rdHeld = false) : s.status = 0#16 := by
  simp [State.status, State.isConnected, State.busy, hl, hc, hp, hw, hr, Status.code]

/-- Settles O30: the step is the reset pin's, which keeps nothing but the trace, the levels and the inputs. -/
theorem resetPinResetsEveryRegister : Obligations.ResetPinResetsEveryRegister := by
  unfold Obligations.ResetPinResetsEveryRegister
  intro s p rest hi hr
  exact ⟨_, step_reset hi hr, rfl, status_eq_zero rfl rfl rfl rfl rfl, rfl, rfl, rfl, rfl, rfl, rfl, rfl,
    reset_sweepPos, rfl, rfl, rfl, rfl, rfl, rfl, rfl, rfl, rfl, rfl⟩

/-- Settles O31: register by register, and an idle block is ready. -/
theorem resetState : Obligations.ResetState := by
  unfold Obligations.ResetState
  exact ⟨rfl, status_eq_zero rfl rfl rfl rfl rfl, rfl, rfl, rfl, reset_sweepPos, rfl, rfl, rfl, rfl, rfl, rfl, rfl,
    rfl, rfl, rfl⟩

/-- Settles O42: the reset pin leads to the invariant from every state, and from the reset state back to that state. -/
theorem invariantAtReset : Obligations.InvariantAtReset := by
  unfold Obligations.InvariantAtReset
  have hreset : resetByPin State.reset = State.reset := rfl
  exact hreset ▸ resetByPin_inv State.reset

end Sys2Proof.Machine

/-! ## Words and packets written out in the spec's vectors (O25)

The literals are computed only as far as the encoder, a field or a length; what they decode to is said by the decoder's
lemmas. -/

namespace Sys2Proof.Machine

/-- A word with a nonzero RSV0 field is illegal, whatever command code stands below it (R93). -/
theorem decodeHostWord_of_rsv0_ne_zero {w : HostWord} (h : hostRsv0 w ≠ 0#4) :
    decodeHostWord w = .rejected .rsv0Nonzero := if_pos h

/-- Settles O25: the two commands and the three packets are what the encoder makes of their operands; the other word has
RSV0 set, and the chunk is too short. -/
theorem knownCodesDecode : Obligations.KnownCodesDecode := by
  unfold Obligations.KnownCodesDecode
  have hconnect : hostWordOf opConnect 0#8 1000000#32 = 0x000F424000000000#64 := by decide
  have hwritePos : hostWordOf opWritePos 1#8 (BitVec.ofInt 32 (-10)) = 0xFFFFFFF600000105#64 := by decide
  have hreqRead : encReadPosition 1#8 = [0xFF#8, 0xFF#8, 0x01#8, 0x04#8, 0x02#8, 0x38#8, 0x02#8, 0xBE#8] := by decide
  have hreqWrite : encWritePosition 1#8 2048 =
      [0xFF#8, 0xFF#8, 0x01#8, 0x05#8, 0x03#8, 0x2A#8, 0x00#8, 0x08#8, 0xC4#8] := by decide
  have hreqTorque : encWriteTorqueEnable 4#8 false =
      [0xFF#8, 0xFF#8, 0x04#8, 0x04#8, 0x03#8, 0x28#8, 0x00#8, 0xCC#8] := by decide
  rw [← hconnect, ← hwritePos, ← hreqRead, ← hreqWrite, ← hreqTorque]
  refine ⟨?connect, ?writePos, ?rsv0, ?reqReadPos, ?reqWritePos, ?reqWriteTorque, ?chunk⟩
  case connect | writePos => exact decodeHostWord_hostWordOf ..
  case rsv0 => exact decodeHostWord_of_rsv0_ne_zero (by decide)
  case reqReadPos => exact decodeRequest_encReadPosition 1#8
  case reqWritePos => exact decodeRequest_encWritePosition 1#8 2048
  case reqWriteTorque => exact decodeRequest_encWriteTorqueEnable 4#8 false
  case chunk => exact decodeResponse_short (by decide)

end Sys2Proof.Machine
